-- ==== Sys2Proof/Word.lean ====
section
/-! DEFINITION. The word of this hardware: the byte (R8). -/

namespace Sys2Proof

/-- A byte, bits numbered from 0, the least significant (R8). -/
abbrev Byte := BitVec 8

end Sys2Proof
end

