-- ==== Sys2Proof/Config.lean ====
section
/-! DEFINITION. The configuration record (R24), the named parameters of the model (R7) and the preset (R141). -/

namespace Sys2Proof

/-- The choices of `segment_remap` and of `com_scan` (R24). -/
inductive Remap
  | normal
  | remapped
  deriving DecidableEq, Repr

/-- The choices of `display_mode` (R24). -/
inductive DisplayMode
  | normal
  | inverse
  deriving DecidableEq, Repr

/-- The choices of `charge_pump` (R24, R75). -/
inductive ChargePump
  | disabled
  | v7_5
  | v8_5
  | v9_0
  deriving DecidableEq, Repr

/-- A configuration: the record of twelve fields of R24, in its order. `CFG` holds one. -/
structure Cfg where
  clockDiv      : Byte
  muxRatio      : Byte
  displayOffset : Byte
  startLine     : Byte
  segmentRemap  : Remap
  comScan       : Remap
  comPins       : Byte
  contrast      : Byte
  precharge     : Byte
  vcomh         : Byte
  displayMode   : DisplayMode
  chargePump    : ChargePump
  deriving DecidableEq, Repr

/-- `CMD_TABLE` (R7, D14): the opcode and operand bytes of the initialization commands that the source does not
give, one field for each byte R84 and R75 list. The bytes of SET_PAGE, SET_COL_LOW and SET_COL_HIGH are the
source's own and are not in it. -/
structure CmdTable where
  displayOff      : Byte
  clockDiv        : Byte
  muxRatio        : Byte
  displayOffset   : Byte
  startLineBase   : Byte
  segmentNormal   : Byte
  segmentRemapped : Byte
  comNormal       : Byte
  comRemapped     : Byte
  comPins         : Byte
  contrast        : Byte
  precharge       : Byte
  vcomh           : Byte
  displayResume   : Byte
  modeNormal      : Byte
  modeInverse     : Byte
  chargePump      : Byte
  pumpDisabled    : Byte
  pump7_5         : Byte
  pump8_5         : Byte
  pump9_0         : Byte
  displayOn       : Byte
  deriving DecidableEq, Repr

/-- `PIXEL_OFF_POLICY` (R7, R173). -/
inductive PixelOffPolicy
  | clear
  | ignore
  deriving DecidableEq, Repr

/-- The named parameters the machine reads (R7, R29), fixed for a whole run. State carries them, so that a
statement about every state is a statement about every value of every parameter. DESIGN CHOICE, log 4. -/
structure Params where
  pixelOff        : PixelOffPolicy
  clearAfterFlush : Bool
  cmdTable        : CmdTable
  defaultConfig   : Cfg
  deriving DecidableEq, Repr

/-- Which natural numbers besides 0 name a value of the transport's error type: the type argument of R7 (D3, U3). It
has no body, so nothing can be proved of which values there are or how many. Log 3. -/
opaque transportErrorTag : Nat → Bool

/-- `TransportError` (R7, D3): the transport's error type, uninterpreted. It has a value, since R31 lets the transport
answer `Err(e)` for some `e` of it (DEDUCED); it may have one, finitely many or unboundedly many. A tag names a value
and means nothing. Log 3. -/
structure TransportError where
  tag     : Nat
  isValue : tag = 0 ∨ transportErrorTag tag = true
  deriving DecidableEq, Repr

/-- The one error value that can be written down: every other one is a variable of a statement (log 3). -/
def someTransportError : TransportError := ⟨0, .inl rfl⟩

/-- What R141 asks of `PRESET_CONTRAST` and `PRESET_VCOMH`, given `DEFAULT_CONFIG`. -/
def PresetLegal (dflt : Cfg) (presetContrast presetVcomh : Byte) : Prop :=
  dflt.contrast.toNat < presetContrast.toNat ∧ presetVcomh ≠ dflt.vcomh

/-- `PRESET_CONFIG` (R141): `DEFAULT_CONFIG` with four fields changed. The two open bytes are arguments (log 8). -/
def presetConfig (dflt : Cfg) (presetContrast presetVcomh : Byte) : Cfg :=
  { dflt with
    segmentRemap := .remapped
    comScan := .remapped
    contrast := presetContrast
    vcomh := presetVcomh }

end Sys2Proof
end

