-- ==== Sys2Proof/Syntax.lean ====
section
/-! DEFINITION. The instructions: one constructor per row of spec/opcode_table.json (R84, R73, R80), and what a
request looks like on the request port (R70, R80). -/

namespace Sys2Proof

/-- The rows of spec/opcode_table.json, in its order. -/
inductive Row
  | displayOff
  | setClockDiv
  | setMuxRatio
  | setDisplayOffset
  | setStartLine
  | setSegmentRemap
  | setComScan
  | setComPins
  | setContrast
  | setPrecharge
  | setVcomh
  | entireDisplayResume
  | setDisplayMode
  | setChargePump
  | displayOn
  | setPage
  | setColLow
  | setColHigh
  | pageData
  | setPixel
  | replaceFromRaw
  | setConfig
  | runInit
  | flush
  | clearScreen
  deriving DecidableEq, Repr

/-- The instructions of the block: the eighteen register commands (R120), the data-phase transmission (R73) and
the six host requests (R80). `runInit` is INITIALIZE. -/
inductive Instr
  | displayOff
  | setClockDiv (v : Byte)
  | setMuxRatio (v : Byte)
  | setDisplayOffset (v : Byte)
  | setStartLine (l : Byte)
  | setSegmentRemap (r : Remap)
  | setComScan (r : Remap)
  | setComPins (v : Byte)
  | setContrast (v : Byte)
  | setPrecharge (v : Byte)
  | setVcomh (v : Byte)
  | entireDisplayResume
  | setDisplayMode (m : DisplayMode)
  | setChargePump (m : ChargePump)
  | displayOn
  | setPage (p : Fin 8)
  | setColLow (c : Fin 128)
  | setColHigh (c : Fin 128)
  | pageData (d : List Byte)
  | setPixel (x y : Int) (on : Bool)
  | replaceFromRaw (pages : List (List Byte))
  | setConfig (c : Cfg)
  | runInit
  | flush
  | clearScreen
  deriving DecidableEq, Repr

/-- The table's row of an instruction. -/
def Instr.row : Instr → Row
  | .displayOff => .displayOff
  | .setClockDiv _ => .setClockDiv
  | .setMuxRatio _ => .setMuxRatio
  | .setDisplayOffset _ => .setDisplayOffset
  | .setStartLine _ => .setStartLine
  | .setSegmentRemap _ => .setSegmentRemap
  | .setComScan _ => .setComScan
  | .setComPins _ => .setComPins
  | .setContrast _ => .setContrast
  | .setPrecharge _ => .setPrecharge
  | .setVcomh _ => .setVcomh
  | .entireDisplayResume => .entireDisplayResume
  | .setDisplayMode _ => .setDisplayMode
  | .setChargePump _ => .setChargePump
  | .displayOn => .displayOn
  | .setPage _ => .setPage
  | .setColLow _ => .setColLow
  | .setColHigh _ => .setColHigh
  | .pageData _ => .pageData
  | .setPixel _ _ _ => .setPixel
  | .replaceFromRaw _ => .replaceFromRaw
  | .setConfig _ => .setConfig
  | .runInit => .runInit
  | .flush => .flush
  | .clearScreen => .clearScreen

/-- What carries a row: the command phase, the data phase (R71) or the request port (R70). -/
inductive Carrier
  | command
  | data
  | request
  deriving DecidableEq, Repr

/-- The table's `phase` column. -/
def Row.carrier : Row → Carrier
  | .displayOff | .setClockDiv | .setMuxRatio | .setDisplayOffset | .setStartLine
  | .setSegmentRemap | .setComScan | .setComPins | .setContrast | .setPrecharge
  | .setVcomh | .entireDisplayResume | .setDisplayMode | .setChargePump | .displayOn
  | .setPage | .setColLow | .setColHigh => .command
  | .pageData => .data
  | .setPixel | .replaceFromRaw | .setConfig | .runInit | .flush | .clearScreen => .request

/-- What carries an instruction. -/
def Instr.carrier (i : Instr) : Carrier := i.row.carrier

/-- The operands of a presented request (R80): a tagged record, as the source gives no binary form (R70). -/
inductive Operands
  | none
  | pixel (x y : Int) (on : Bool)
  | grid (pages : List (List Byte))
  | config (c : Cfg)
  deriving DecidableEq, Repr

/-- A request on the request port: a 3-bit label (R80, R82) and its operands. -/
structure PortRequest where
  label : BitVec 3
  operands : Operands
  deriving DecidableEq, Repr

/-- An encoded instruction: a request, the bytes of a command-phase transmission or those of a data-phase one. -/
inductive Code
  | request (r : PortRequest)
  | command (bytes : List Byte)
  | data (bytes : List Byte)
  deriving DecidableEq, Repr

end Sys2Proof
end

