-- ==== Sys2Proof/WellFormed.lean ====
section
/-! DEFINITION. Which terms of `Instr` the hardware has: the two shapes that no type of a field fixes (R73, R81). -/

namespace Sys2Proof

/-- A grid of 8 pages of 128 bytes (R81). -/
def gridShape (pages : List (List Byte)) : Bool :=
  pages.length == 8 && pages.all (fun page => page.length == 128)

/-- A data transmission carries 128 bytes (R73); a raw grid is 8 x 128 bytes (R81); every other operand is legal by
its type (R100, R120). -/
def Instr.wellFormed : Instr → Bool
  | .pageData d => d.length == 128
  | .replaceFromRaw pages => gridShape pages
  | .displayOff => true
  | .setClockDiv _ => true
  | .setMuxRatio _ => true
  | .setDisplayOffset _ => true
  | .setStartLine _ => true
  | .setSegmentRemap _ => true
  | .setComScan _ => true
  | .setComPins _ => true
  | .setContrast _ => true
  | .setPrecharge _ => true
  | .setVcomh _ => true
  | .entireDisplayResume => true
  | .setDisplayMode _ => true
  | .setChargePump _ => true
  | .displayOn => true
  | .setPage _ => true
  | .setColLow _ => true
  | .setColHigh _ => true
  | .setPixel _ _ _ => true
  | .setConfig _ => true
  | .runInit => true
  | .flush => true
  | .clearScreen => true

end Sys2Proof
end

