-- ==== Sys2Proof/Decode.lean ====
section
/-! DEFINITION. The decoder of requests and transmissions, total and refusing by name, then the encoder `Enc`
(R70 to R75, R80 to R86, R100 to R121). -/

namespace Sys2Proof

/-- Why an encoded form stands for no instruction. Each is a form the block never takes or emits; refusing it is
safe. -/
inductive DecodeError
  /-- Labels 6 and 7 spell no request (R82). -/
  | unknownLabel (label : BitVec 3)
  /-- The operands are not of the shape the label's request takes (R80, R81). -/
  | operandShape (label : BitVec 3)
  /-- A transmission of no bytes (R31). -/
  | emptyTransmission
  /-- Byte 0 matches no row of R84: "not emitted by the block" (R86). -/
  | noRow (b : Byte)
  /-- More or fewer bytes than the row's length (R85). -/
  | wrongLength (b : Byte)
  /-- `0x18..0x1F`: the high nibble of no column 0..127 (R74). -/
  | columnOutOfRange (b : Byte)
  /-- The operand byte of no charge-pump choice (R75). -/
  | notAChargePump (v : Byte)
  /-- A data transmission that is not 128 bytes (R73). -/
  | pageLength
  deriving DecidableEq, Repr

/-! ### The decoder -/

/-- One row of the opcode map (R84). -/
structure OpRow where
  row  : Row
  mat  : Byte
  mask : Byte
  len  : Nat
  deriving DecidableEq, Repr

/-- The opcode map: byte-0 match, byte-0 mask and length of every register command (R84, R121). -/
def opRows : List OpRow :=
  [ ⟨.displayOff, 0xAE, 0xFF, 1⟩,
    ⟨.setClockDiv, 0xD5, 0xFF, 2⟩,
    ⟨.setMuxRatio, 0xA8, 0xFF, 2⟩,
    ⟨.setDisplayOffset, 0xD3, 0xFF, 2⟩,
    ⟨.setStartLine, 0x40, 0xC0, 1⟩,
    ⟨.setSegmentRemap, 0xA0, 0xFE, 1⟩,
    ⟨.setComScan, 0xC0, 0xF7, 1⟩,
    ⟨.setComPins, 0xDA, 0xFF, 2⟩,
    ⟨.setContrast, 0x81, 0xFF, 2⟩,
    ⟨.setPrecharge, 0xD9, 0xFF, 2⟩,
    ⟨.setVcomh, 0xDB, 0xFF, 2⟩,
    ⟨.entireDisplayResume, 0xA4, 0xFF, 1⟩,
    ⟨.setDisplayMode, 0xA6, 0xFE, 1⟩,
    ⟨.setChargePump, 0x8D, 0xFF, 2⟩,
    ⟨.displayOn, 0xAF, 0xFF, 1⟩,
    ⟨.setPage, 0xB0, 0xF8, 1⟩,
    ⟨.setColLow, 0x00, 0xF0, 1⟩,
    ⟨.setColHigh, 0x10, 0xF0, 1⟩ ]

/-- Whether byte 0 matches the row (R84). -/
def OpRow.accepts (r : OpRow) (b : Byte) : Bool := b &&& r.mask == r.mat

/-- The row byte 0 matches, if any. -/
def opRowOf (b : Byte) : Option OpRow := opRows.find? (fun r => r.accepts b)

/-- The charge-pump choice of an operand byte (R75). -/
def decodeChargePump (v : Byte) : Except DecodeError Instr :=
  if v = 0x10 then .ok (.setChargePump .disabled)
  else if v = 0x14 then .ok (.setChargePump .v7_5)
  else if v = 0x94 then .ok (.setChargePump .v8_5)
  else if v = 0x95 then .ok (.setChargePump .v9_0)
  else .error (.notAChargePump v)

/-- The column whose bits `[7:4]` stand in byte 0, bits `[3:0]` of the column zero (R74, R118). -/
def decodeColHigh (b : Byte) : Except DecodeError Instr :=
  if h : b.toNat % 16 < 8 then .ok (.setColHigh ⟨16 * (b.toNat % 16), by omega⟩)
  else .error (.columnOutOfRange b)

/-- The command of a row, its fields taken from byte 0 (R74) or from the operand byte (R75). -/
def decodeFields (row : Row) (b v : Byte) : Except DecodeError Instr :=
  match row with
  | .displayOff => .ok .displayOff
  | .setClockDiv => .ok (.setClockDiv v)
  | .setMuxRatio => .ok (.setMuxRatio v)
  | .setDisplayOffset => .ok (.setDisplayOffset v)
  | .setStartLine => .ok (.setStartLine (b &&& 0x3F))
  | .setSegmentRemap => .ok (.setSegmentRemap (if b.getLsbD 0 then .remapped else .normal))
  | .setComScan => .ok (.setComScan (if b.getLsbD 3 then .remapped else .normal))
  | .setComPins => .ok (.setComPins v)
  | .setContrast => .ok (.setContrast v)
  | .setPrecharge => .ok (.setPrecharge v)
  | .setVcomh => .ok (.setVcomh v)
  | .entireDisplayResume => .ok .entireDisplayResume
  | .setDisplayMode => .ok (.setDisplayMode (if b.getLsbD 0 then .inverse else .normal))
  | .setChargePump => decodeChargePump v
  | .displayOn => .ok .displayOn
  | .setPage => .ok (.setPage ⟨b.toNat % 8, Nat.mod_lt _ (by decide)⟩)
  | .setColLow => .ok (.setColLow ⟨b.toNat % 16, by omega⟩)
  | .setColHigh => decodeColHigh b
  | .pageData => .error (.noRow b)
  | .setPixel => .error (.noRow b)
  | .replaceFromRaw => .error (.noRow b)
  | .setConfig => .error (.noRow b)
  | .runInit => .error (.noRow b)
  | .flush => .error (.noRow b)
  | .clearScreen => .error (.noRow b)

/-- The command of a command-phase transmission, under CMD_TABLE's default bytes (R85, R86). -/
def decodeCommand : List Byte → Except DecodeError Instr
  | [] => .error .emptyTransmission
  | b :: rest =>
    match opRowOf b with
    | none => .error (.noRow b)
    | some r =>
      if rest.length + 1 = r.len then decodeFields r.row b (rest.headD 0)
      else .error (.wrongLength b)

/-- The instruction of a request's label and operands (R80, R82). -/
def decodeRequest (r : PortRequest) : Except DecodeError Instr :=
  match r.label.toNat with
  | 0 =>
    match r.operands with
    | .pixel x y on => .ok (.setPixel x y on)
    | _ => .error (.operandShape r.label)
  | 1 =>
    match r.operands with
    | .grid pages =>
      if gridShape pages then .ok (.replaceFromRaw pages) else .error (.operandShape r.label)
    | _ => .error (.operandShape r.label)
  | 2 =>
    match r.operands with
    | .config c => .ok (.setConfig c)
    | _ => .error (.operandShape r.label)
  | 3 =>
    match r.operands with
    | .none => .ok .runInit
    | _ => .error (.operandShape r.label)
  | 4 =>
    match r.operands with
    | .none => .ok .flush
    | _ => .error (.operandShape r.label)
  | 5 =>
    match r.operands with
    | .none => .ok .clearScreen
    | _ => .error (.operandShape r.label)
  | _ => .error (.unknownLabel r.label)

/-- The decoder, total: an instruction or a named refusal. -/
def decode : Code → Except DecodeError Instr
  | .request r => decodeRequest r
  | .command bytes => decodeCommand bytes
  | .data bytes => if bytes.length = 128 then .ok (.pageData bytes) else .error .pageLength

/-! ### The encoder -/

/-- `CMD_TABLE`'s default: the bytes of R84 and R75. PRESUMED (the spec's own general knowledge, G2 to G4), log 5. -/
def standardTable : CmdTable where
  displayOff := 0xAE
  clockDiv := 0xD5
  muxRatio := 0xA8
  displayOffset := 0xD3
  startLineBase := 0x40
  segmentNormal := 0xA0
  segmentRemapped := 0xA1
  comNormal := 0xC0
  comRemapped := 0xC8
  comPins := 0xDA
  contrast := 0x81
  precharge := 0xD9
  vcomh := 0xDB
  displayResume := 0xA4
  modeNormal := 0xA6
  modeInverse := 0xA7
  chargePump := 0x8D
  pumpDisabled := 0x10
  pump7_5 := 0x14
  pump8_5 := 0x94
  pump9_0 := 0x95
  displayOn := 0xAF

/-- The operand byte of a charge-pump choice (R75): `cp` of R114. -/
def chargePumpByte (t : CmdTable) : ChargePump → Byte
  | .disabled => t.pumpDisabled
  | .v7_5 => t.pump7_5
  | .v8_5 => t.pump8_5
  | .v9_0 => t.pump9_0

/-- The byte of SET_SEGMENT_REMAP (R106). -/
def segmentRemapByte (t : CmdTable) : Remap → Byte
  | .normal => t.segmentNormal
  | .remapped => t.segmentRemapped

/-- The byte of SET_COM_SCAN (R107). -/
def comScanByte (t : CmdTable) : Remap → Byte
  | .normal => t.comNormal
  | .remapped => t.comRemapped

/-- The byte of SET_DISPLAY_MODE (R113). -/
def displayModeByte (t : CmdTable) : DisplayMode → Byte
  | .normal => t.modeNormal
  | .inverse => t.modeInverse

/-- The byte of SET_START_LINE: bits `[5:0]` of the line in the base byte, bits `[7:6]` dropped (R105, D7; log 16). -/
def startLineByte (t : CmdTable) (l : Byte) : Byte := t.startLineBase ||| (l &&& 0x3F)

/-- The byte of SET_PAGE (R116). -/
def pageByte (p : Fin 8) : Byte := 0xB0 ||| BitVec.ofNat 8 p.val

/-- The byte of SET_COL_LOW (R117). -/
def colLowByte (c : Fin 128) : Byte := BitVec.ofNat 8 c.val &&& 0x0F

/-- The byte of SET_COL_HIGH (R118). -/
def colHighByte (c : Fin 128) : Byte := 0x10 ||| ((BitVec.ofNat 8 c.val >>> 4) &&& 0x0F)

/-- `Enc` (R100): the bytes of a register command, opcode byte first (R54). An instruction that is no register
command has none. -/
def commandBytes (t : CmdTable) : Instr → List Byte
  | .displayOff => [t.displayOff]
  | .setClockDiv v => [t.clockDiv, v]
  | .setMuxRatio v => [t.muxRatio, v]
  | .setDisplayOffset v => [t.displayOffset, v]
  | .setStartLine l => [startLineByte t l]
  | .setSegmentRemap r => [segmentRemapByte t r]
  | .setComScan r => [comScanByte t r]
  | .setComPins v => [t.comPins, v]
  | .setContrast v => [t.contrast, v]
  | .setPrecharge v => [t.precharge, v]
  | .setVcomh v => [t.vcomh, v]
  | .entireDisplayResume => [t.displayResume]
  | .setDisplayMode m => [displayModeByte t m]
  | .setChargePump m => [t.chargePump, chargePumpByte t m]
  | .displayOn => [t.displayOn]
  | .setPage p => [pageByte p]
  | .setColLow c => [colLowByte c]
  | .setColHigh c => [colHighByte c]
  | .pageData _ => []
  | .setPixel _ _ _ => []
  | .replaceFromRaw _ => []
  | .setConfig _ => []
  | .runInit => []
  | .flush => []
  | .clearScreen => []

/-- `Len` (R121): the length of a register command's bytes. -/
def commandLength : Row → Nat
  | .setClockDiv | .setMuxRatio | .setDisplayOffset | .setComPins | .setContrast
  | .setPrecharge | .setVcomh | .setChargePump => 2
  | .displayOff | .setStartLine | .setSegmentRemap | .setComScan | .entireDisplayResume
  | .setDisplayMode | .displayOn | .setPage | .setColLow | .setColHigh => 1
  | .pageData | .setPixel | .replaceFromRaw | .setConfig | .runInit | .flush | .clearScreen => 0

/-- The encoded form of an instruction under a command table: a command's bytes, a page's bytes, or a labelled
request (R71, R80). -/
def encodeWith (t : CmdTable) (i : Instr) : Code :=
  match i with
  | .displayOff => .command (commandBytes t i)
  | .setClockDiv _ => .command (commandBytes t i)
  | .setMuxRatio _ => .command (commandBytes t i)
  | .setDisplayOffset _ => .command (commandBytes t i)
  | .setStartLine _ => .command (commandBytes t i)
  | .setSegmentRemap _ => .command (commandBytes t i)
  | .setComScan _ => .command (commandBytes t i)
  | .setComPins _ => .command (commandBytes t i)
  | .setContrast _ => .command (commandBytes t i)
  | .setPrecharge _ => .command (commandBytes t i)
  | .setVcomh _ => .command (commandBytes t i)
  | .entireDisplayResume => .command (commandBytes t i)
  | .setDisplayMode _ => .command (commandBytes t i)
  | .setChargePump _ => .command (commandBytes t i)
  | .displayOn => .command (commandBytes t i)
  | .setPage _ => .command (commandBytes t i)
  | .setColLow _ => .command (commandBytes t i)
  | .setColHigh _ => .command (commandBytes t i)
  | .pageData d => .data d
  | .setPixel x y on => .request ⟨0, .pixel x y on⟩
  | .replaceFromRaw pages => .request ⟨1, .grid pages⟩
  | .setConfig c => .request ⟨2, .config c⟩
  | .runInit => .request ⟨3, .none⟩
  | .flush => .request ⟨4, .none⟩
  | .clearScreen => .request ⟨5, .none⟩

/-- The encoder, under CMD_TABLE's default. -/
def encode (i : Instr) : Code := encodeWith standardTable i

/-- The instruction the decoder answers for the bytes of `i`: the same one with the operand bits that the encoding
drops set to zero: SET_START_LINE keeps `[5:0]` (R105), SET_COL_LOW `[3:0]` (R117), SET_COL_HIGH `[7:4]` (R118). -/
def Instr.canonical (i : Instr) : Instr :=
  match i with
  | .setStartLine l => .setStartLine (l &&& 0x3F)
  | .setColLow c => .setColLow ⟨c.val % 16, by omega⟩
  | .setColHigh c => .setColHigh ⟨16 * (c.val / 16), by omega⟩
  | .displayOff => i
  | .setClockDiv _ => i
  | .setMuxRatio _ => i
  | .setDisplayOffset _ => i
  | .setSegmentRemap _ => i
  | .setComScan _ => i
  | .setComPins _ => i
  | .setContrast _ => i
  | .setPrecharge _ => i
  | .setVcomh _ => i
  | .entireDisplayResume => i
  | .setDisplayMode _ => i
  | .setChargePump _ => i
  | .displayOn => i
  | .setPage _ => i
  | .pageData _ => i
  | .setPixel _ _ _ => i
  | .replaceFromRaw _ => i
  | .setConfig _ => i
  | .runInit => i
  | .flush => i
  | .clearScreen => i

/-! ### The opcode table's words -/

/-- Byte `k` of a word numbered as the table numbers it. -/
def wordByte (w k : Nat) : Byte := BitVec.ofNat 8 (w / 256 ^ k)

/-- The request a label spells with every operand zero: the table gives a request's operands no bits. -/
def zeroOperandRequest (label : Nat) : PortRequest where
  label := BitVec.ofNat 3 label
  operands :=
    match label with
    | 0 => .pixel 0 0 false
    | 1 => .grid (List.replicate 8 (List.replicate 128 0))
    | 2 => .config
        { clockDiv := 0, muxRatio := 0, displayOffset := 0, startLine := 0, segmentRemap := .normal
          comScan := .normal, comPins := 0, contrast := 0, precharge := 0, vcomh := 0
          displayMode := .normal, chargePump := .disabled }
    | _ => .none

/-- The bytes of a command word: as many as byte 0 says (R85). -/
def commandWord (w : Nat) : List Byte :=
  match opRowOf (wordByte w 0) with
  | none => [wordByte w 0]
  | some r => (List.range r.len).map (wordByte w)

/-- The encoded form a word of the table stands for. The table gives PAGE_DATA no bits or 128 bytes, a command one
or two bytes, a request a 3-bit label; a word of one byte below 6 is read as a label, since the first instruction
after reset is a request (R251). DESIGN CHOICE, log 11. -/
def tableCode (nbits w : Nat) : Code :=
  if nbits = 0 || 16 < nbits then .data ((List.range 128).map (wordByte w))
  else if w < 6 || nbits < 8 then .request (zeroOperandRequest w)
  else .command (commandWord w)

/-- The instruction the decoder reads from a word numbered as spec/opcode_table.json numbers it. -/
def decodeTableWord (nbits w : Nat) : Option Instr :=
  match decode (tableCode nbits w) with
  | .ok i => some i
  | .error _ => none

end Sys2Proof
end

