-- ==== Sys2Proof/Machine/Defaults.lean ====
section
/-! DEFINITION. The defaults of the named parameters (R7). -/

namespace Sys2Proof.Machine

/-- `DEFAULT_CONFIG`'s default: the last column of R24's table. PRESUMED (the spec's own general knowledge, G5),
log 6. -/
def standardConfig : Cfg where
  clockDiv := 0x80
  muxRatio := 0x3F
  displayOffset := 0x00
  startLine := 0x00
  segmentRemap := .normal
  comScan := .normal
  comPins := 0x12
  contrast := 0x7F
  precharge := 0x22
  vcomh := 0x20
  displayMode := .normal
  chargePump := .disabled

/-- The spec's default of every parameter the machine reads (R7). The two policies are the spec's own choices
(D5, D6). DESIGN CHOICE, log 7. -/
def standardParams : Params where
  pixelOff := .clear
  clearAfterFlush := false
  cmdTable := standardTable
  defaultConfig := standardConfig

end Sys2Proof.Machine
end

