-- ==== Sys2Proof/Machine/State.lean ====
section
/-! DEFINITION. The state of the block (R20), its ports (R30 to R32), the record of a run (R36), the reasons a step
can stop, and the reset state (R37). -/

namespace Sys2Proof.Machine

/-- FB as the list of its non-zero bytes, by linear index `128 p + c` (R51), addresses strictly rising; an unlisted
byte reads `0x00`, the reset contents (R37). Log 9. -/
abbrev Memory := List Host.Cell

/-- Where a flush takes its page bytes from: FLUSH or CLEAR_SCREEN (R22). -/
inductive Src
  | buf
  | zero
  deriving DecidableEq, Repr

/-- The four transmissions of one page (R22). -/
inductive PagePhase
  | pageSel
  | colLow
  | colHigh
  | data
  deriving DecidableEq, Repr

/-- The sequencer position (R22): the program counter, 80 values. -/
inductive Seq
  | idle
  | init (k : Fin 15)
  | flush (src : Src) (p : Fin 8) (ph : PagePhase)
  deriving DecidableEq, Repr

/-- The two transmission phases (R31). -/
inductive Phase
  | cmd
  | data
  deriving DecidableEq, Repr

/-- A transmission (R31). -/
structure Tx where
  phase : Phase
  bytes : List Byte
  deriving DecidableEq, Repr

/-- The transport's answer to one transmission (R31). -/
inductive Response
  | ok
  | err (e : TransportError)
  deriving DecidableEq, Repr

/-- The result of a request (R32, R220). -/
inductive Result
  | ok
  | transportFailure (e : TransportError)
  | boundaryViolation (x y : Int)
  deriving DecidableEq, Repr

/-- One entry of the record (R36): a transmission with its response, or a result with the request it answers. -/
inductive Event
  | tx (t : Tx) (r : Response)
  | result (request : Instr) (res : Result)
  deriving DecidableEq, Repr

/-- Why the machine stops with a fault. -/
inductive Fault
  /-- MemRead or MemWrite past linear index 1023, an address that does not exist (R51). Raised by `memRead` and
  `memWrite`; no request asks for it. Safe. -/
  | outsideFramebuffer
  deriving DecidableEq, Repr

/-- Why the machine has no meaning for what it is asked. -/
inductive Refusal
  /-- An instruction whose meaning is not written. Raised by no arm. Safe. -/
  | notModelled (mnemonic : String)
  /-- A presented request that spells no request: labels 6 and 7 (R82), or operands of another shape than the
  label's (R81). Raised by `fetch`. Safe. -/
  | undecodable (why : DecodeError)
  /-- A request given to `exec` while another is in progress; the block has no accept step then (R30). Raised by the
  six requests' meanings; a step never asks for it, it leaves the request waiting. Safe. -/
  | requestWhileBusy
  /-- A command or page given to `exec` where the sequence has no transmission of that row (R86, R147). Raised by the
  transmissions' meanings; a step never asks for it. Safe. -/
  | offSequence
  /-- Operand data of another shape than the row's (R73, R81). Raised by PAGE_DATA's and REPLACE_FROM_RAW's meanings;
  the decoder never answers such a term. Safe. -/
  | malformedOperand
  deriving DecidableEq, Repr

/-- The block and its ports.
`fb`, `cfg`, `seq` are the state of the block (R20). `requests` and `responses` are what the host presents and what
the transport answers, the next one first (R30, R31; log 1). `record` is the observation (R36; log 17), oldest entry
first. `params` are the named parameters of R7 (log 4). -/
structure State where
  fb        : Memory
  cfg       : Cfg
  seq       : Seq
  requests  : List PortRequest
  responses : List Response
  record    : List Event
  params    : Params
  deriving DecidableEq, Repr

/-- The state after reset under given parameters (R37, R250): FB zero, CFG the default, Idle, an empty record. -/
def State.resetWith (p : Params) : State where
  fb := []
  cfg := p.defaultConfig
  seq := .idle
  requests := []
  responses := []
  record := []
  params := p

/-- The state after reset under the spec's defaults (R37). -/
def State.reset : State := State.resetWith standardParams

end Sys2Proof.Machine
end

