-- ==== Sys2Proof/Machine/Memory.lean ====
section
/-! DEFINITION. The framebuffer as a memory of 1024 bytes in one canonical form (R50, R51, R61). -/

namespace Sys2Proof.Machine

/-- `FB_BYTES` (R6). -/
def fbBytes : Nat := 1024

/-- The byte at a linear index; an unlisted index reads `0x00` (R37). -/
def Memory.read : Memory → Nat → Byte
  | [], _ => 0#8
  | (b, w) :: m, a => if a = b then w else Memory.read m a

/-- One byte written, the canonical form kept: a zero is not listed. -/
def Memory.write : Memory → Nat → Byte → Memory
  | [], a, v => if v = 0#8 then [] else [(a, v)]
  | (b, w) :: m, a, v =>
    if a < b then (if v = 0#8 then (b, w) :: m else (a, v) :: (b, w) :: m)
    else if a = b then (if v = 0#8 then m else (a, v) :: m)
    else (b, w) :: Memory.write m a v

/-- `n` bytes from index `a` on, the lowest index first (R51). -/
def Memory.readBytes (m : Memory) (a : Nat) : Nat → List Byte
  | 0 => []
  | n + 1 => m.read a :: Memory.readBytes m (a + 1) n

/-- Bytes written from index `a` on, the first at the lowest index (R51). -/
def Memory.writeBytes (m : Memory) (a : Nat) : List Byte → Memory
  | [] => m
  | v :: vs => Memory.writeBytes (m.write a v) (a + 1) vs

/-- Addresses strictly rising from `lo` on, all in the framebuffer, no byte zero. -/
def Memory.wfFrom (lo : Nat) : Memory → Bool
  | [] => true
  | (a, v) :: m => decide (lo ≤ a) && decide (a < fbBytes) && decide (v ≠ 0#8) && Memory.wfFrom (a + 1) m

/-- The canonical form: equal framebuffers are equal lists. -/
def Memory.wf (m : Memory) : Bool := Memory.wfFrom 0 m

/-- The linear index of page `p`, column `c` (R51). -/
def linearIndex (p : Fin 8) (c : Fin 128) : Nat := 128 * p.val + c.val

end Sys2Proof.Machine
end

