-- ==== Sys2Proof/Machine/Operands.lean ====
section
/-! DEFINITION. The operand forms of the requests: the page-address translator (R52), the new byte of a pixel
(R170), the flat form of a raw grid (R175). -/

namespace Sys2Proof.Machine

/-- Where a pixel stands in the framebuffer (R52). -/
structure PixelPlace where
  page   : Fin 8
  column : Fin 128
  bit    : Fin 8
  deriving DecidableEq, Repr

/-- The range of R52. -/
abbrev InRange (x y : Int) : Prop := 0 ≤ x ∧ x ≤ 127 ∧ 0 ≤ y ∧ y ≤ 63

/-- The page-address translator (R52): no place for an out-of-range coordinate. -/
def translatePixel (x y : Int) : Option PixelPlace :=
  if h : InRange x y then
    some
      { page := ⟨y.toNat / 8, by have := h.2.2.1; have := h.2.2.2; omega⟩
        column := ⟨x.toNat, by have := h.1; have := h.2.1; omega⟩
        bit := ⟨y.toNat % 8, by omega⟩ }
  else none

/-- The x of a place (R53). -/
def PixelPlace.x (w : PixelPlace) : Int := w.column.val

/-- The y of a place (R53). -/
def PixelPlace.y (w : PixelPlace) : Int := 8 * w.page.val + w.bit.val

/-- One bit of a byte alone. -/
def bitMask (b : Fin 8) : Byte := 1#8 <<< b.val

/-- The new byte of SET_PIXEL (R170): OR-in for on (R172); for off what the policy says (R173). -/
def pixelByte (policy : PixelOffPolicy) (on : Bool) (b : Fin 8) (old : Byte) : Byte :=
  if on then old ||| bitMask b
  else
    match policy with
    | .clear => old &&& ~~~ bitMask b
    | .ignore => old

/-- `flat(P)` (R175): page 0 first. -/
def flatGrid (pages : List (List Byte)) : List Byte := pages.flatten

end Sys2Proof.Machine
end

