-- ==== Sys2Proof/Machine/Sequence.lean ====
section
/-! DEFINITION. The fixed sequences of the block: the initialization program (R142), the cursor-set sequence (R148),
the flush positions (R191, R192), and what `Next`, `Last` and the owner of a position are (R145, R193). -/

namespace Sys2Proof.Machine

/-- The initialization program (R142), step 1 first. -/
def initProgram (c : Cfg) : List Instr :=
  [ .displayOff,
    .setClockDiv c.clockDiv,
    .setMuxRatio c.muxRatio,
    .setDisplayOffset c.displayOffset,
    .setStartLine c.startLine,
    .setSegmentRemap c.segmentRemap,
    .setComScan c.comScan,
    .setComPins c.comPins,
    .setContrast c.contrast,
    .setPrecharge c.precharge,
    .setVcomh c.vcomh,
    .entireDisplayResume,
    .setDisplayMode c.displayMode,
    .setChargePump c.chargePump,
    .displayOn ]

/-- `InitCmd(k, C)` (R142). -/
def initCmd (k : Fin 15) (c : Cfg) : Instr := (initProgram c).get ⟨k.val, k.isLt⟩

/-- `CursorSet(p, c)` (R148). -/
def cursorSet (p : Fin 8) (c : Fin 128) : List Instr := [.setPage p, .setColLow c, .setColHigh c]

/-- The bytes of a Data position (R192): page `p` of FB, or 128 zeros. -/
def pageBytes (src : Src) (p : Fin 8) (fb : Memory) : List Byte :=
  match src with
  | .buf => fb.readBytes (128 * p.val) 128
  | .zero => List.replicate 128 0

/-- The instruction of a flush position (R192). -/
def flushInstr (src : Src) (p : Fin 8) (ph : PagePhase) (fb : Memory) : Instr :=
  match ph with
  | .pageSel => .setPage p
  | .colLow => .setColLow 0
  | .colHigh => .setColHigh 0
  | .data => .pageData (pageBytes src p fb)

/-- The four transmissions of one page, in order (R190, R191). -/
def pageProgram (src : Src) (p : Fin 8) (fb : Memory) : List Instr :=
  [ flushInstr src p .pageSel fb, flushInstr src p .colLow fb, flushInstr src p .colHigh fb,
    flushInstr src p .data fb ]

/-- The thirty-two transmissions of a flush, pages 0 to 7 (R190, R191, R197). -/
def flushProgram (src : Src) (fb : Memory) : List Instr :=
  ([0, 1, 2, 3, 4, 5, 6, 7] : List (Fin 8)).flatMap (fun p => pageProgram src p fb)

/-- `j` of R191: the place of a phase within its page. -/
def PagePhase.index : PagePhase → Nat
  | .pageSel => 0
  | .colLow => 1
  | .colHigh => 2
  | .data => 3

/-- The position after this one (R145, R193); after a request's last, and after `Idle`, `Idle` (R22). -/
def Seq.next : Seq → Seq
  | .idle => .idle
  | .init k => if h : k.val + 1 < 15 then .init ⟨k.val + 1, h⟩ else .idle
  | .flush src p .pageSel => .flush src p .colLow
  | .flush src p .colLow => .flush src p .colHigh
  | .flush src p .colHigh => .flush src p .data
  | .flush src p .data => if h : p.val + 1 < 8 then .flush src ⟨p.val + 1, h⟩ .pageSel else .idle

/-- `Last` (R34): `Init(14)` and `Flush(src, 7, Data)`. -/
def Seq.isLast : Seq → Bool
  | .idle => false
  | .init k => k == 14
  | .flush _ p .data => p == 7
  | .flush _ _ .pageSel => false
  | .flush _ _ .colLow => false
  | .flush _ _ .colHigh => false

/-- The request in progress at a position (R22). -/
def Seq.owner : Seq → Option Instr
  | .idle => none
  | .init _ => some .runInit
  | .flush .buf _ _ => some .flush
  | .flush .zero _ _ => some .clearScreen

/-- The table row a flush phase transmits (R192). -/
def PagePhase.row : PagePhase → Row
  | .pageSel => .setPage
  | .colLow => .setColLow
  | .colHigh => .setColHigh
  | .data => .pageData

/-- The table row that stands at a position (R142, R192); every row of the initialization program is the same under
every configuration. -/
def Seq.row (q : Seq) (c : Cfg) : Option Row :=
  match q with
  | .idle => none
  | .init k => some (initCmd k c).row
  | .flush _ _ ph => some ph.row

/-- The instruction a position transmits (R144, R192). -/
def Seq.instr (q : Seq) (c : Cfg) (fb : Memory) : Option Instr :=
  match q with
  | .idle => none
  | .init k => some (initCmd k c)
  | .flush src p ph => some (flushInstr src p ph fb)

/-- The whole sequence a position belongs to (R142, R191). -/
def Seq.program (q : Seq) (c : Cfg) (fb : Memory) : List Instr :=
  match q with
  | .idle => []
  | .init _ => initProgram c
  | .flush src _ _ => flushProgram src fb

/-- The number of a position in its sequence: `k`, or `4 p + j` (R191). -/
def Seq.number : Seq → Nat
  | .idle => 0
  | .init k => k.val
  | .flush _ p ph => 4 * p.val + ph.index

/-- Where a request starts (R33). -/
def initStart : Seq := .init 0

/-- Where FLUSH or CLEAR_SCREEN starts (R33). -/
def flushStart (src : Src) : Seq := .flush src 0 .pageSel

end Sys2Proof.Machine
end

