-- ==== Sys2Proof/Machine/Ops.lean ====
section
/-! DEFINITION. The named operations over the state: framebuffer access (R9, R51), yielding a result and raising an
error (R32, R224), accepting a request (R33), transmitting (R34). -/

namespace Sys2Proof.Machine

/-! ### Framebuffer -/

/-- `FB[p][c]` (R9). -/
def State.fbRead (s : State) (p : Fin 8) (c : Fin 128) : Byte := s.fb.read (linearIndex p c)

/-- `FB[p][c] <- v` (R9). -/
def State.fbWrite (s : State) (p : Fin 8) (c : Fin 128) (v : Byte) : State :=
  { s with fb := s.fb.write (linearIndex p c) v }

/-- `MemRead(a, n)` (R51): it requires `a + n ≤ 1024`. -/
def State.memRead (s : State) (a n : Nat) : Except Fault (List Byte) :=
  if a + n ≤ fbBytes then .ok (s.fb.readBytes a n) else .error .outsideFramebuffer

/-- `MemWrite(a, n, v)` (R51), `n` the length of `v`: it requires `a + n ≤ 1024`. -/
def State.memWrite (s : State) (a : Nat) (v : List Byte) : Except Fault State :=
  if a + v.length ≤ fbBytes then .ok { s with fb := s.fb.writeBytes a v }
  else .error .outsideFramebuffer

/-- Every byte of FB to `0x00` (R196): in the canonical form nothing is listed. -/
def State.clearFb (s : State) : State := { s with fb := [] }

/-- The pixel at `(x, y)` (R21, R56): bit `y % 8` of `FB[y/8][x]`, 1 for on (D4). -/
def State.pixel (s : State) (w : PixelPlace) : Bool := (s.fbRead w.page w.column).getLsbD w.bit.val

/-! ### Results and errors -/

/-- The numeric label of a result (R220). -/
def Result.code : Result → Nat
  | .ok => 0
  | .transportFailure _ => 1
  | .boundaryViolation _ _ => 2

/-- Ends the request `req` with a result: the block is in `Idle` and the result stands in the record (R32, R36,
R227). -/
def State.finishWith (s : State) (req : Instr) (res : Result) : State :=
  { s with seq := .idle, record := s.record ++ [.result req res] }

/-- Ends a request with an error result (R224), the block's whole way of taking an exception: `seq <- Idle`, the
result yielded, nothing saved and nothing undone. There is no return from it (R227). -/
def State.raise (s : State) (req : Instr) (err : Result) : State := s.finishWith req err

/-! ### Accept step -/

/-- A request is accepted only in `Idle` (R30, R33). -/
def acceptWhenIdle (s : State) (effect : Host.Outcome State Fault Refusal) :
    Host.Outcome State Fault Refusal :=
  match s.seq with
  | .idle => effect
  | .init _ => .refused .requestWhileBusy
  | .flush _ _ _ => .refused .requestWhileBusy

/-! ### Transmit step -/

/-- `Emit` (R9): the response is taken and the transmission recorded with it. -/
def State.emit (s : State) (tx : Tx) (resp : Response) (later : List Response) : State :=
  { s with responses := later, record := s.record ++ [.tx tx resp] }

/-- `Finish` (R196): FLUSH clears FB after its last page when `CLEAR_AFTER_FLUSH`; CLEAR_SCREEN and INITIALIZE do
nothing (R145). -/
def State.finish (s : State) : State :=
  match s.seq with
  | .flush .buf _ _ => if s.params.clearAfterFlush then s.clearFb else s
  | .flush .zero _ _ => s
  | .init _ => s
  | .idle => s

/-- What the response does (R34): the request `req` goes on, completes, or fails. -/
def State.settle (s : State) (req : Instr) : Response → State
  | .ok => if s.seq.isLast then s.finish.finishWith req .ok else { s with seq := s.seq.next }
  | .err e => s.raise req (.transportFailure e)

/-- The transmit step (R34). With no response yet it waits: the state is unchanged (U9; log 2). -/
def transmit (tx : Tx) (s : State) : Host.Outcome State Fault Refusal :=
  match s.seq.owner with
  | none => .refused .offSequence
  | some req =>
    match s.responses with
    | [] => .next s
    | resp :: later => .next ((s.emit tx resp later).settle req resp)

/-- The transmission of a command under a command table: command phase, `Enc` of it (R71); a page goes out in the
data phase (R73). -/
def txOf (t : CmdTable) (i : Instr) : Tx :=
  match i.carrier, i with
  | .data, .pageData d => ⟨.data, d⟩
  | _, _ => ⟨.cmd, commandBytes t i⟩

/-- An instruction of the fixed sequences transmits where its row stands in them (R86, R147; log 13). -/
def transmitInPlace (i : Instr) (s : State) : Host.Outcome State Fault Refusal :=
  if s.seq.row s.cfg = some i.row then transmit (txOf s.params.cmdTable i) s
  else .refused .offSequence

end Sys2Proof.Machine
end

