-- ==== Sys2Proof/Machine/FramebufferRequests.lean ====
section
/-! DEFINITION. The requests that write the framebuffer: SET_PIXEL (R170) and REPLACE_FROM_RAW (R175). Both complete in
their accept step and emit nothing (R33). -/

namespace Sys2Proof.Machine

/-- SET_PIXEL in `Idle` (R170): out of range it raises BoundaryViolation with FB unchanged (R171), in range it
rewrites one byte. -/
def setPixelEffect (x y : Int) (on : Bool) (s : State) : State :=
  match translatePixel x y with
  | none => s.raise (.setPixel x y on) (.boundaryViolation x y)
  | some w =>
    (s.fbWrite w.page w.column
      (pixelByte s.params.pixelOff on w.bit (s.fbRead w.page w.column))).finishWith
        (.setPixel x y on) .ok

/-- SET_PIXEL (R170). -/
def execSetPixel (x y : Int) (on : Bool) (s : State) : Host.Outcome State Fault Refusal :=
  acceptWhenIdle s (.next (setPixelEffect x y on s))

/-- REPLACE_FROM_RAW in `Idle` (R175): `MemWrite(0, 1024, flat(P))`, one atomic step. -/
def replaceEffect (pages : List (List Byte)) (s : State) : Host.Outcome State Fault Refusal :=
  if gridShape pages then
    match s.memWrite 0 (flatGrid pages) with
    | .ok t => .next (t.finishWith (.replaceFromRaw pages) .ok)
    | .error f => .fault f
  else .refused .malformedOperand

/-- REPLACE_FROM_RAW (R175). -/
def execReplaceFromRaw (pages : List (List Byte)) (s : State) : Host.Outcome State Fault Refusal :=
  acceptWhenIdle s (replaceEffect pages s)

end Sys2Proof.Machine
end

