-- ==== Sys2Proof/Machine/InitCommands.lean ====
section
/-! DEFINITION. The fifteen initialization commands (R101 to R115): each is emitted, as one command-phase
transmission of `Enc` of it, at its step of INITIALIZE (R142, R144, R146). -/

namespace Sys2Proof.Machine

/-- DISPLAY_OFF (R101), init step 1. -/
def execDisplayOff (s : State) : Host.Outcome State Fault Refusal :=
  transmitInPlace .displayOff s

/-- SET_CLOCK_DIV (R102), init step 2. -/
def execSetClockDiv (v : Byte) (s : State) : Host.Outcome State Fault Refusal :=
  transmitInPlace (.setClockDiv v) s

/-- SET_MUX_RATIO (R103), init step 3. -/
def execSetMuxRatio (v : Byte) (s : State) : Host.Outcome State Fault Refusal :=
  transmitInPlace (.setMuxRatio v) s

/-- SET_DISPLAY_OFFSET (R104), init step 4. -/
def execSetDisplayOffset (v : Byte) (s : State) : Host.Outcome State Fault Refusal :=
  transmitInPlace (.setDisplayOffset v) s

/-- SET_START_LINE (R105), init step 5. -/
def execSetStartLine (l : Byte) (s : State) : Host.Outcome State Fault Refusal :=
  transmitInPlace (.setStartLine l) s

/-- SET_SEGMENT_REMAP (R106), init step 6. -/
def execSetSegmentRemap (r : Remap) (s : State) : Host.Outcome State Fault Refusal :=
  transmitInPlace (.setSegmentRemap r) s

/-- SET_COM_SCAN (R107), init step 7. -/
def execSetComScan (r : Remap) (s : State) : Host.Outcome State Fault Refusal :=
  transmitInPlace (.setComScan r) s

/-- SET_COM_PINS (R108), init step 8. -/
def execSetComPins (v : Byte) (s : State) : Host.Outcome State Fault Refusal :=
  transmitInPlace (.setComPins v) s

/-- SET_CONTRAST (R109), init step 9. -/
def execSetContrast (v : Byte) (s : State) : Host.Outcome State Fault Refusal :=
  transmitInPlace (.setContrast v) s

/-- SET_PRECHARGE (R110), init step 10. -/
def execSetPrecharge (v : Byte) (s : State) : Host.Outcome State Fault Refusal :=
  transmitInPlace (.setPrecharge v) s

/-- SET_VCOMH (R111), init step 11. -/
def execSetVcomh (v : Byte) (s : State) : Host.Outcome State Fault Refusal :=
  transmitInPlace (.setVcomh v) s

/-- ENTIRE_DISPLAY_RESUME (R112), init step 12. -/
def execEntireDisplayResume (s : State) : Host.Outcome State Fault Refusal :=
  transmitInPlace .entireDisplayResume s

/-- SET_DISPLAY_MODE (R113), init step 13. -/
def execSetDisplayMode (m : DisplayMode) (s : State) : Host.Outcome State Fault Refusal :=
  transmitInPlace (.setDisplayMode m) s

/-- SET_CHARGE_PUMP (R114), init step 14. -/
def execSetChargePump (m : ChargePump) (s : State) : Host.Outcome State Fault Refusal :=
  transmitInPlace (.setChargePump m) s

/-- DISPLAY_ON (R115), init step 15, the last: an `Ok` completes INITIALIZE (R145). -/
def execDisplayOn (s : State) : Host.Outcome State Fault Refusal :=
  transmitInPlace .displayOn s

end Sys2Proof.Machine
end

