-- ==== Sys2Proof/Machine/PageTransfer.lean ====
section
/-! DEFINITION. The four transmissions of one page transfer: the cursor commands (R116 to R118, R148) and the page's
data (R73), at the flush positions of R191. -/

namespace Sys2Proof.Machine

/-- SET_PAGE (R116), at a PageSel position. -/
def execSetPage (p : Fin 8) (s : State) : Host.Outcome State Fault Refusal :=
  transmitInPlace (.setPage p) s

/-- SET_COL_LOW (R117), at a ColLow position. -/
def execSetColLow (c : Fin 128) (s : State) : Host.Outcome State Fault Refusal :=
  transmitInPlace (.setColLow c) s

/-- SET_COL_HIGH (R118), at a ColHigh position. -/
def execSetColHigh (c : Fin 128) (s : State) : Host.Outcome State Fault Refusal :=
  transmitInPlace (.setColHigh c) s

/-- PAGE_DATA (R73), at a Data position: 128 bytes in the data phase. -/
def execPageData (d : List Byte) (s : State) : Host.Outcome State Fault Refusal :=
  if d.length = 128 then transmitInPlace (.pageData d) s else .refused .malformedOperand

end Sys2Proof.Machine
end

