-- ==== Sys2Proof/Machine/SequencerRequests.lean ====
section
/-! DEFINITION. SET_CONFIG (R140) and the three requests that start a sequence: INITIALIZE (R143), FLUSH (R190) and
CLEAR_SCREEN (R197). The accept step only moves `seq` (R33); the transmit steps do the rest (R34). -/

namespace Sys2Proof.Machine

/-- SET_CONFIG (R140): all twelve fields at once, nothing checked, nothing emitted. -/
def execSetConfig (c : Cfg) (s : State) : Host.Outcome State Fault Refusal :=
  acceptWhenIdle s (.next ({ s with cfg := c }.finishWith (.setConfig c) .ok))

/-- INITIALIZE (R143): its accept step (R33). -/
def execRunInit (s : State) : Host.Outcome State Fault Refusal :=
  acceptWhenIdle s (.next { s with seq := initStart })

/-- FLUSH (R190): its accept step (R33). -/
def execFlush (s : State) : Host.Outcome State Fault Refusal :=
  acceptWhenIdle s (.next { s with seq := flushStart .buf })

/-- CLEAR_SCREEN (R197): its accept step (R33). -/
def execClearScreen (s : State) : Host.Outcome State Fault Refusal :=
  acceptWhenIdle s (.next { s with seq := flushStart .zero })

end Sys2Proof.Machine
end

