-- ==== Sys2Proof/Machine/Dispatch.lean ====
section
/-! DEFINITION. One arm per instruction, each one call of its meaning. -/

namespace Sys2Proof.Machine

/-- The meaning of an instruction in a state. -/
def exec (i : Instr) (s : State) : Host.Outcome State Fault Refusal :=
  match i with
  -- R101 to R115: the initialization commands
  | .displayOff => Sys2Proof.Machine.execDisplayOff s
  | .setClockDiv v => Sys2Proof.Machine.execSetClockDiv v s
  | .setMuxRatio v => Sys2Proof.Machine.execSetMuxRatio v s
  | .setDisplayOffset v => Sys2Proof.Machine.execSetDisplayOffset v s
  | .setStartLine l => Sys2Proof.Machine.execSetStartLine l s
  | .setSegmentRemap r => Sys2Proof.Machine.execSetSegmentRemap r s
  | .setComScan r => Sys2Proof.Machine.execSetComScan r s
  | .setComPins v => Sys2Proof.Machine.execSetComPins v s
  | .setContrast v => Sys2Proof.Machine.execSetContrast v s
  | .setPrecharge v => Sys2Proof.Machine.execSetPrecharge v s
  | .setVcomh v => Sys2Proof.Machine.execSetVcomh v s
  | .entireDisplayResume => Sys2Proof.Machine.execEntireDisplayResume s
  | .setDisplayMode m => Sys2Proof.Machine.execSetDisplayMode m s
  | .setChargePump m => Sys2Proof.Machine.execSetChargePump m s
  | .displayOn => Sys2Proof.Machine.execDisplayOn s
  -- R116 to R118, R73: the page transfer
  | .setPage p => Sys2Proof.Machine.execSetPage p s
  | .setColLow c => Sys2Proof.Machine.execSetColLow c s
  | .setColHigh c => Sys2Proof.Machine.execSetColHigh c s
  | .pageData d => Sys2Proof.Machine.execPageData d s
  -- R80: the host requests
  | .setPixel x y on => Sys2Proof.Machine.execSetPixel x y on s
  | .replaceFromRaw pages => Sys2Proof.Machine.execReplaceFromRaw pages s
  | .setConfig c => Sys2Proof.Machine.execSetConfig c s
  | .runInit => Sys2Proof.Machine.execRunInit s
  | .flush => Sys2Proof.Machine.execFlush s
  | .clearScreen => Sys2Proof.Machine.execClearScreen s

end Sys2Proof.Machine
end

