-- ==== Sys2Proof/Machine/Fetch.lean ====
section
/-! DEFINITION. Which instruction the next step runs (R33, R34): in `Idle` the request at the port, else the
instruction the sequence has at `seq`; and how a word of the opcode table is put where that happens. -/

namespace Sys2Proof.Machine

/-- What the next step finds to run. -/
inductive Fetched
  /-- An instruction, and the state it runs in. -/
  | run (i : Instr) (s : State)
  /-- Nothing presented: the block waits in `Idle` (R251). -/
  | wait
  /-- A presented request that spells no request (R82). -/
  | refuse (r : Refusal)
  /-- A page read outside the framebuffer (R51); it does not happen. -/
  | fault (f : Fault)
  deriving DecidableEq, Repr

/-- The next request, taken from the port (R30, R33). -/
def fetchRequest (s : State) : Fetched :=
  match s.requests with
  | [] => .wait
  | r :: later =>
    match decodeRequest r with
    | .ok i => .run i { s with requests := later }
    | .error why => .refuse (.undecodable why)

/-- The instruction of a flush position (R192); a Data position of FLUSH reads its page with MemRead (R51). -/
def fetchFlush (src : Src) (p : Fin 8) (ph : PagePhase) (s : State) : Fetched :=
  match src, ph with
  | .buf, .data =>
    match s.memRead (128 * p.val) 128 with
    | .ok d => .run (.pageData d) s
    | .error f => .fault f
  | .zero, .data => .run (flushInstr .zero p .data s.fb) s
  | _, .pageSel => .run (flushInstr src p .pageSel s.fb) s
  | _, .colLow => .run (flushInstr src p .colLow s.fb) s
  | _, .colHigh => .run (flushInstr src p .colHigh s.fb) s

/-- `Tx(S)` as an instruction (R144, R192), or the next request. -/
def fetch (s : State) : Fetched :=
  match s.seq with
  | .idle => fetchRequest s
  | .init k => .run (initCmd k s.cfg) s
  | .flush src p ph => fetchFlush src p ph s

/-! ### Placing an instruction -/

/-- A presented request in an idle block. -/
def State.present (s : State) (r : PortRequest) : State :=
  { s with seq := .idle, requests := r :: s.requests }

/-- The block at a position of a sequence, the transport's next answer `Ok`. -/
def State.placeAt (s : State) (q : Seq) : State :=
  { s with seq := q, responses := .ok :: s.responses }

/-- The state in which the next step runs `i` (log 12): a request is presented; a command's position is selected and
the field of `CFG` its operand comes from set; a page is loaded. The block forms column 0 only (R119). -/
def State.place (s : State) (i : Instr) : State :=
  match i with
  | .displayOff => s.placeAt (.init 0)
  | .setClockDiv v => { s with cfg := { s.cfg with clockDiv := v } }.placeAt (.init 1)
  | .setMuxRatio v => { s with cfg := { s.cfg with muxRatio := v } }.placeAt (.init 2)
  | .setDisplayOffset v => { s with cfg := { s.cfg with displayOffset := v } }.placeAt (.init 3)
  | .setStartLine l => { s with cfg := { s.cfg with startLine := l } }.placeAt (.init 4)
  | .setSegmentRemap r => { s with cfg := { s.cfg with segmentRemap := r } }.placeAt (.init 5)
  | .setComScan r => { s with cfg := { s.cfg with comScan := r } }.placeAt (.init 6)
  | .setComPins v => { s with cfg := { s.cfg with comPins := v } }.placeAt (.init 7)
  | .setContrast v => { s with cfg := { s.cfg with contrast := v } }.placeAt (.init 8)
  | .setPrecharge v => { s with cfg := { s.cfg with precharge := v } }.placeAt (.init 9)
  | .setVcomh v => { s with cfg := { s.cfg with vcomh := v } }.placeAt (.init 10)
  | .entireDisplayResume => s.placeAt (.init 11)
  | .setDisplayMode m => { s with cfg := { s.cfg with displayMode := m } }.placeAt (.init 12)
  | .setChargePump m => { s with cfg := { s.cfg with chargePump := m } }.placeAt (.init 13)
  | .displayOn => s.placeAt (.init 14)
  | .setPage p => s.placeAt (.flush .buf p .pageSel)
  | .setColLow _ => s.placeAt (.flush .buf 0 .colLow)
  | .setColHigh _ => s.placeAt (.flush .buf 0 .colHigh)
  | .pageData d => { s with fb := s.fb.writeBytes 0 d }.placeAt (.flush .buf 0 .data)
  | .setPixel x y on => s.present ⟨0, .pixel x y on⟩
  | .replaceFromRaw pages => s.present ⟨1, .grid pages⟩
  | .setConfig c => s.present ⟨2, .config c⟩
  | .runInit => s.present ⟨3, .none⟩
  | .flush => s.present ⟨4, .none⟩
  | .clearScreen => s.present ⟨5, .none⟩

/-- A table word placed where the next step finds it. A word that spells no instruction stands as a request of label
7, which the step refuses (R82; log 12). -/
def State.placeTableWord (s : State) (nbits w : Nat) : State :=
  match decodeTableWord nbits w with
  | some i => s.place i
  | none => s.present ⟨7, .none⟩

end Sys2Proof.Machine
end

