-- ==== Sys2Proof/Machine/Step.lean ====
section
/-! DEFINITION. One step of the block (R12): the accept step in `Idle` (R33), else the transmit step (R34). -/

namespace Sys2Proof.Machine

/-- One step. With nothing presented the state is unchanged (R251). -/
def step (s : State) : Host.Outcome State Fault Refusal :=
  match fetch s with
  | .run i t => exec i t
  | .wait => .next s
  | .refuse r => .refused r
  | .fault f => .fault f

/-- The state in which the next step runs the instruction of a table word (log 12). -/
def State.withFetchWord (s : State) (nbits w : Nat) : State := s.placeTableWord nbits w

end Sys2Proof.Machine
end

