-- ==== Sys2Proof/Safety.lean ====
section
/-! DEFINITION. What a safe run of the block is, in the terms the statements use: the transcript (R11, R36), the
invariants every step keeps, and the renamings that say what the block does not look at. -/

namespace Sys2Proof.Machine

/-! ### The record -/

/-- The transcript (R11): every transmission with its response, in order. -/
def State.transcript (s : State) : List (Tx × Response) :=
  s.record.filterMap fun e =>
    match e with
    | .tx t r => some (t, r)
    | .result _ _ => none

/-- Every result with the request it answers, in order (R32, R36). -/
def State.results (s : State) : List (Instr × Result) :=
  s.record.filterMap fun e =>
    match e with
    | .tx _ _ => none
    | .result i r => some (i, r)

/-- The transmissions since the last result: those of the request in progress. -/
def openTransmissions (record : List Event) : List (Tx × Response) :=
  record.foldl
    (fun acc e =>
      match e with
      | .tx t r => acc ++ [(t, r)]
      | .result _ _ => [])
    []

/-- A list of instructions as transmissions all answered `Ok`. -/
def sentOk (t : CmdTable) (is : List Instr) : List (Tx × Response) :=
  is.map fun i => (txOf t i, Response.ok)

/-- The same as entries of the record. -/
def okEvents (t : CmdTable) (is : List Instr) : List Event :=
  is.map fun i => Event.tx (txOf t i) .ok

/-- The state after a transmission answered `Ok` that moves `seq` to `q`: nothing else changes (R34). -/
def State.afterOk (s : State) (tx : Tx) (later : List Response) (q : Seq) : State :=
  { s with seq := q, responses := later, record := s.record ++ [.tx tx .ok] }

/-- The state after a transmission answered `Err(e)` that ends the request `req`: nothing else changes (R34, R224). -/
def State.afterErr (s : State) (tx : Tx) (e : TransportError) (later : List Response) (req : Instr) :
    State :=
  { s with
    seq := .idle
    responses := later
    record := s.record ++ [.tx tx (.err e), .result req (.transportFailure e)] }

/-- `n` steps of the machine, stopping at a fault or a refusal. -/
def runSteps : Nat → State → Host.Outcome State Fault Refusal
  | 0, s => .next s
  | n + 1, s =>
    match step s with
    | .next t => runSteps n t
    | .fault f => .fault f
    | .refused r => .refused r

/-! ### Invariants -/

/-- The request in progress has sent exactly the positions of its sequence before `seq`, each answered `Ok` (R34,
R142, R143, R190, R191): no step skipped, repeated or reordered (R147), and nothing sent while `Idle`. -/
def State.coherent (s : State) : Prop :=
  openTransmissions s.record =
    sentOk s.params.cmdTable ((s.seq.program s.cfg s.fb).take s.seq.number)

/-- The shapes a transmission has (R31): one or two bytes in the command phase, 128 in the data phase. -/
def Tx.legal (t : Tx) : Prop :=
  match t.phase with
  | .cmd => t.bytes.length = 1 ∨ t.bytes.length = 2
  | .data => t.bytes.length = 128

/-- Which result each request can yield (R221); a boundary violation carries the coordinates presented, and they are
out of range (R220). -/
def resultLegal (req : Instr) (res : Result) : Prop :=
  match req, res with
  | .setPixel x y _, .ok => InRange x y
  | .setPixel x y _, .boundaryViolation x' y' => x' = x ∧ y' = y ∧ ¬ InRange x y
  | .setPixel _ _ _, .transportFailure _ => False
  | .replaceFromRaw _, r => r = .ok
  | .setConfig _, r => r = .ok
  | .runInit, r => r = .ok ∨ ∃ e, r = .transportFailure e
  | .flush, r => r = .ok ∨ ∃ e, r = .transportFailure e
  | .clearScreen, r => r = .ok ∨ ∃ e, r = .transportFailure e
  | _, _ => False

/-- An entry the record can hold (R31, R221). -/
def Event.legal : Event → Prop
  | .tx t _ => t.legal
  | .result req res => resultLegal req res

/-- Every entry of the record is legal. -/
def State.recordLegal (s : State) : Prop := ∀ e ∈ s.record, e.legal

/-- The invariant of the block: the framebuffer is in its canonical form, the record holds legal entries only, and
the request in progress stands where its transmissions say. -/
structure State.Inv (s : State) : Prop where
  canonical : s.fb.wf = true
  legal     : s.recordLegal
  coherent  : s.coherent

/-! ### Outcomes and renamings -/

/-- A function applied to the next state, if there is one. -/
def mapNext (f : State → State) :
    Host.Outcome State Fault Refusal → Host.Outcome State Fault Refusal
  | .next s => .next (f s)
  | .fault x => .fault x
  | .refused r => .refused r

/-- A renaming of the transport's error values, on a response. -/
def Response.mapErr (f : TransportError → TransportError) : Response → Response
  | .ok => .ok
  | .err e => .err (f e)

/-- The same on a result. -/
def Result.mapErr (f : TransportError → TransportError) : Result → Result
  | .ok => .ok
  | .transportFailure e => .transportFailure (f e)
  | .boundaryViolation x y => .boundaryViolation x y

/-- The same on an entry of the record. -/
def Event.mapErr (f : TransportError → TransportError) : Event → Event
  | .tx t r => .tx t (r.mapErr f)
  | .result i r => .result i (r.mapErr f)

/-- The same on a state: on the answers to come and on the record. -/
def State.mapErr (f : TransportError → TransportError) (s : State) : State :=
  { s with
    responses := s.responses.map (Response.mapErr f)
    record := s.record.map (Event.mapErr f) }

/-- Another queue of requests at the port. -/
def State.withRequests (s : State) (q : List PortRequest) : State := { s with requests := q }

/-- Another framebuffer. -/
def State.withFb (s : State) (m : Memory) : State := { s with fb := m }

/-- Another configuration register. -/
def State.withCfg (s : State) (c : Cfg) : State := { s with cfg := c }

end Sys2Proof.Machine
end

