-- ==== Sys2Proof/Certificates/Slice0/Obligations.lean ====
section
/-! DEFINITION. The statements about the model, for the provers. -/

open Sys2Proof Sys2Proof.Machine

/-! ### Encodings -/

/-- A few words written out from the spec's encodings decode to their instructions (R84, R80). -/
def Obligations.SampleWordsDecode : Prop :=
  decode (.command [0b10101110#8]) = .ok .displayOff ∧
  decode (.command [0b11010101#8, 0b10000000#8]) = .ok (.setClockDiv 0x80) ∧
  decode (.command [0b01111111#8]) = .ok (.setStartLine 63) ∧
  decode (.command [0b11001000#8]) = .ok (.setComScan .remapped) ∧
  decode (.command [0b10001101#8, 0b10010100#8]) = .ok (.setChargePump .v8_5) ∧
  decode (.command [0b10110011#8]) = .ok (.setPage 3) ∧
  decode (.command [0b00010101#8]) = .ok (.setColHigh 80) ∧
  decode (.data (List.replicate 128 0)) = .ok (.pageData (List.replicate 128 0)) ∧
  decode (.request ⟨0b000#3, .pixel 5 10 true⟩) = .ok (.setPixel 5 10 true) ∧
  decode (.request ⟨0b100#3, .none⟩) = .ok .flush

/-- R121: eight commands have two bytes, the other ten one, under every command table; the length is that of the row
alone. -/
def Obligations.EncodedLengthIsFixedPerCommand : Prop :=
  (∀ (t : CmdTable) (i : Instr), i.carrier = .command →
    (commandBytes t i).length = commandLength i.row) ∧
  (∀ r : Row, commandLength r = 2 ↔
    r ∈ [Row.setClockDiv, .setMuxRatio, .setDisplayOffset, .setComPins, .setContrast, .setPrecharge,
      .setVcomh, .setChargePump]) ∧
  (∀ r : Row, commandLength r = 1 ↔
    r ∈ [Row.displayOff, .setStartLine, .setSegmentRemap, .setComScan, .entireDisplayResume,
      .setDisplayMode, .displayOn, .setPage, .setColLow, .setColHigh])

/-- R85: under CMD_TABLE's default the bytes that are a whole command, and the bytes that open one of two bytes; the
two sets do not meet, so byte 0 alone tells the length. -/
def Obligations.ByteZeroTellsTheLength : Prop :=
  (∀ b : Byte, (∃ i : Instr, commandBytes standardTable i = [b]) ↔
    (b.toNat ≤ 0x17 ∨ (0x40 ≤ b.toNat ∧ b.toNat ≤ 0x7F) ∨ (0xB0 ≤ b.toNat ∧ b.toNat ≤ 0xB7) ∨
      b ∈ ([0xA0, 0xA1, 0xA4, 0xA6, 0xA7, 0xAE, 0xAF, 0xC0, 0xC8] : List Byte))) ∧
  (∀ b : Byte, (∃ (i : Instr) (v : Byte), commandBytes standardTable i = [b, v]) ↔
    b ∈ ([0x81, 0x8D, 0xA8, 0xD3, 0xD5, 0xD9, 0xDA, 0xDB] : List Byte)) ∧
  (∀ b : Byte, ¬ ((∃ i : Instr, commandBytes standardTable i = [b]) ∧
    ∃ (i : Instr) (v : Byte), commandBytes standardTable i = [b, v]))

/-- R86: under CMD_TABLE's default, every command-phase transmission a step emits matches exactly one row of the
opcode map and has that row's length. -/
def Obligations.EmittedCommandMatchesOneRow : Prop :=
  ∀ (s t : State) (es : List Event) (bytes : List Byte) (resp : Response),
    s.params.cmdTable = standardTable → step s = .next t → t.record = s.record ++ es →
    Event.tx ⟨.cmd, bytes⟩ resp ∈ es →
    ∃ r ∈ opRows, bytes.length = r.len ∧
      ∀ r' ∈ opRows, r'.accepts (bytes.headD 0) = true ↔ r' = r

/-- R119: the pair SET_COL_LOW(c), SET_COL_HIGH(c) determines `c`. -/
def Obligations.ColumnPairDeterminesColumn : Prop :=
  ∀ (t : CmdTable) (c : Fin 128) (l h : Byte),
    commandBytes t (.setColLow c) = [l] → commandBytes t (.setColHigh c) = [h] →
    c.val = 16 * (h &&& 0x0F).toNat + (l &&& 0x0F).toNat

/-- R142: the initialization program, command by command, and its bytes under CMD_TABLE's default. -/
def Obligations.InitProgramIsTheTable : Prop :=
  ∀ c : Cfg,
    (∀ k : Fin 15, (initProgram c)[k.val]? = some (initCmd k c)) ∧
    initProgram c =
      [ .displayOff, .setClockDiv c.clockDiv, .setMuxRatio c.muxRatio,
        .setDisplayOffset c.displayOffset, .setStartLine c.startLine,
        .setSegmentRemap c.segmentRemap, .setComScan c.comScan, .setComPins c.comPins,
        .setContrast c.contrast, .setPrecharge c.precharge, .setVcomh c.vcomh,
        .entireDisplayResume, .setDisplayMode c.displayMode, .setChargePump c.chargePump,
        .displayOn ] ∧
    (initProgram c).map (commandBytes standardTable) =
      [ [0xAE], [0xD5, c.clockDiv], [0xA8, c.muxRatio], [0xD3, c.displayOffset],
        [0x40 ||| (c.startLine &&& 0x3F)],
        [if c.segmentRemap = .normal then 0xA0 else 0xA1],
        [if c.comScan = .normal then 0xC0 else 0xC8],
        [0xDA, c.comPins], [0x81, c.contrast], [0xD9, c.precharge], [0xDB, c.vcomh], [0xA4],
        [if c.displayMode = .normal then 0xA6 else 0xA7],
        [0x8D, match c.chargePump with
          | .disabled => 0x10
          | .v7_5 => 0x14
          | .v8_5 => 0x94
          | .v9_0 => 0x95],
        [0xAF] ]

/-- Decoding undoes encoding for every well-formed instruction, up to the operand bits an encoding drops: of
SET_START_LINE bits `[7:6]` (R105), of SET_COL_LOW and SET_COL_HIGH the other nibble (R117, R118). -/
def Obligations.DecodeUndoesEncode : Prop :=
  ∀ i : Instr, i.wellFormed = true →
    decode (encode i) = .ok i.canonical ∧ encode i.canonical = encode i ∧
    ((∀ l, i = .setStartLine l → l.toNat < 64) → (∀ c, i = .setColLow c → c.val < 16) →
      (∀ c, i = .setColHigh c → c.val % 16 = 0) → i.canonical = i)

/-- Encoding undoes decoding: an encoded form the decoder takes is the encoding of what it answers, which is
well-formed. So no two forms stand for one instruction and no bit is ignored. -/
def Obligations.EncodeUndoesDecode : Prop :=
  ∀ (c : Code) (i : Instr), decode c = .ok i →
    encode i = c ∧ i.wellFormed = true ∧ i.canonical = i

/-! ### The translator and the framebuffer -/

/-- R52: an in-range pixel stands at page `y / 8`, column `x`, bit `y % 8`; an out-of-range coordinate has no place. -/
def Obligations.TranslatorGivesPageColumnBit : Prop :=
  ∀ x y : Int,
    (InRange x y → ∃ w, translatePixel x y = some w ∧ (w.page.val : Int) = y / 8 ∧
      (w.column.val : Int) = x ∧ (w.bit.val : Int) = y % 8) ∧
    (¬ InRange x y → translatePixel x y = none)

/-- R53: the translation is a bijection of the in-range pixels and the places, with inverse `x = column`,
`y = 8 page + bit`. -/
def Obligations.TranslatorIsABijection : Prop :=
  (∀ (x y : Int) (w : PixelPlace), translatePixel x y = some w ↔ w.x = x ∧ w.y = y) ∧
  (∀ w : PixelPlace, InRange w.x w.y ∧ translatePixel w.x w.y = some w) ∧
  (∀ x y x' y' : Int, InRange x y → translatePixel x y = translatePixel x' y' → x' = x ∧ y' = y)

/-- R51: MemWrite then MemRead of the same bytes gives them back, every other byte is unchanged and the canonical form
kept; past index 1023 both fault. -/
def Obligations.MemWriteThenMemRead : Prop :=
  ∀ (s : State) (a : Nat) (v : List Byte), s.fb.wf = true →
    (a + v.length ≤ 1024 → ∃ t, s.memWrite a v = .ok t ∧ t.memRead a v.length = .ok v ∧
      t = { s with fb := t.fb } ∧ t.fb.wf = true ∧
      ∀ x, ¬ (a ≤ x ∧ x < a + v.length) → t.fb.read x = s.fb.read x) ∧
    (1024 < a + v.length →
      s.memWrite a v = .error .outsideFramebuffer ∧
      s.memRead a v.length = .error .outsideFramebuffer)

/-! ### Reset -/

/-- R37, R250: after reset FB is zero, CFG is DEFAULT_CONFIG, seq is Idle and the record is empty, under every value of
the parameters. -/
def Obligations.ResetHoldsTheStatedValues : Prop :=
  (∀ p : Params,
    (∀ (pg : Fin 8) (c : Fin 128), (State.resetWith p).fbRead pg c = 0) ∧
    (State.resetWith p).cfg = p.defaultConfig ∧ (State.resetWith p).seq = .idle ∧
    (State.resetWith p).record = []) ∧
  State.reset = State.resetWith standardParams

/-- The reset values of CFG are the spec's default column (R24's table, the spec's general knowledge; log 6), and the
two policies the spec's defaults (log 7). -/
def Obligations.ResetConfigurationIsTheDefaultTable : Prop :=
  State.reset.cfg =
    { clockDiv := 0x80, muxRatio := 0x3F, displayOffset := 0x00, startLine := 0x00
      segmentRemap := .normal, comScan := .normal, comPins := 0x12, contrast := 0x7F
      precharge := 0x22, vcomh := 0x20, displayMode := .normal, chargePump := .disabled } ∧
  State.reset.params.pixelOff = .clear ∧ State.reset.params.clearAfterFlush = false

/-- R253: from any idle state with a canonical framebuffer, REPLACE_FROM_RAW of zeros and SET_CONFIG of
DEFAULT_CONFIG, both of which succeed, bring FB, CFG and seq to their reset values. -/
def Obligations.HostRestoresTheResetState : Prop :=
  ∀ (s : State) (pages : List (List Byte)) (q : List PortRequest),
    s.seq = .idle → s.fb.wf = true →
    gridShape pages = true → (∀ page ∈ pages, ∀ b ∈ page, b = 0) →
    s.requests = ⟨1, .grid pages⟩ :: ⟨2, .config s.params.defaultConfig⟩ :: q →
    runSteps 2 s = .next
      { State.resetWith s.params with
        requests := q
        responses := s.responses
        record := s.record ++
          [.result (.replaceFromRaw pages) .ok, .result (.setConfig s.params.defaultConfig) .ok] }

/-! ### The step -/

/-- A step runs the instruction it fetches: in `Idle` the one the request at the port decodes to, which is taken from
the port (R33); busy, the one its position has (R144, R192). -/
def Obligations.StepRunsTheFetchedInstruction : Prop :=
  ∀ s : State,
    (∀ r q i, s.seq = .idle → s.requests = r :: q → decode (.request r) = .ok i →
      step s = exec i { s with requests := q }) ∧
    (∀ k, s.seq = .init k → step s = exec (initCmd k s.cfg) s) ∧
    (∀ src p ph, s.seq = .flush src p ph → step s = exec (flushInstr src p ph s.fb) s)

/-- With nothing to do the block waits: in `Idle` with no request (R251), and busy with no response (U9). That
waiting leaves the state unchanged is the model's choice, log 2. -/
def Obligations.WaitingChangesNothing : Prop :=
  ∀ s : State,
    (s.seq = .idle → s.requests = [] → step s = .next s) ∧
    (s.seq ≠ .idle → s.responses = [] → step s = .next s)

/-- R34: the transmit step. The position's transmission is emitted with the response that came back; `Ok` moves to the
next position, or after the last finishes the request; `Err(e)` ends it with TransportFailure(e). -/
def Obligations.TransmitStepFollowsItsRule : Prop :=
  ∀ (s : State) (i req : Instr) (resp : Response) (later : List Response),
    s.seq.instr s.cfg s.fb = some i → s.seq.owner = some req → s.responses = resp :: later →
    (s.seq.isLast = true ↔ s.seq = .init 14 ∨ ∃ src, s.seq = .flush src 7 .data) ∧
    (resp = .ok → s.seq.isLast = false →
      step s = .next (s.afterOk (txOf s.params.cmdTable i) later s.seq.next)) ∧
    (resp = .ok → s.seq.isLast = true →
      step s = .next
        { s with
          fb := s.finish.fb
          seq := .idle
          responses := later
          record := s.record ++ [.tx (txOf s.params.cmdTable i) .ok, .result req .ok] }) ∧
    (∀ e, resp = .err e →
      step s = .next (s.afterErr (txOf s.params.cmdTable i) e later req))

/-- R145, R193: the order of the positions, the last ones, and that Finish does nothing for INITIALIZE. -/
def Obligations.PositionsFollowInOrder : Prop :=
  (∀ (k : Fin 15) (h : k.val + 1 < 15), (Seq.init k).next = .init ⟨k.val + 1, h⟩) ∧
  (∀ (src : Src) (p : Fin 8),
    (Seq.flush src p .pageSel).next = .flush src p .colLow ∧
    (Seq.flush src p .colLow).next = .flush src p .colHigh ∧
    (Seq.flush src p .colHigh).next = .flush src p .data ∧
    ∀ h : p.val + 1 < 8, (Seq.flush src p .data).next = .flush src ⟨p.val + 1, h⟩ .pageSel) ∧
  (Seq.init 14).isLast = true ∧ (∀ src, (Seq.flush src 7 .data).isLast = true) ∧
  (∀ (s : State) (k : Fin 15), s.seq = .init k → s.finish = s)

/-- R192, R55: what each flush position transmits, under every command table: the page select, the two column bytes of
column 0, and the 128 bytes of the page, column 0 first, or 128 zeros. -/
def Obligations.FlushPositionsTransmit : Prop :=
  ∀ (t : CmdTable) (s : State) (src : Src) (p : Fin 8),
    txOf t (flushInstr src p .pageSel s.fb) = ⟨.cmd, [0xB0 ||| BitVec.ofNat 8 p.val]⟩ ∧
    txOf t (flushInstr src p .colLow s.fb) = ⟨.cmd, [0x00]⟩ ∧
    txOf t (flushInstr src p .colHigh s.fb) = ⟨.cmd, [0x10]⟩ ∧
    txOf t (flushInstr .zero p .data s.fb) = ⟨.data, List.replicate 128 0⟩ ∧
    (txOf t (flushInstr .buf p .data s.fb)).phase = .data ∧
    (txOf t (flushInstr .buf p .data s.fb)).bytes.length = 128 ∧
    ∀ c : Fin 128, (txOf t (flushInstr .buf p .data s.fb)).bytes[c.val]? = some (s.fbRead p c)

/-- While the block is busy the request port has no part in a step: the same step is taken whatever requests are
presented, and they wait (R30). That a busy block with no response to take answers a next state too, where U9 calls it
stuck, is the model's choice, log 2. -/
def Obligations.BusyBlockLeavesRequestsWaiting : Prop :=
  ∀ (s : State) (q : List PortRequest), s.seq ≠ .idle →
    step (s.withRequests q) = mapNext (fun t => t.withRequests q) (step s) ∧
    ∃ t, step s = .next t ∧ t.requests = s.requests

/-- R82: labels 6 and 7 are refused with no step and no result, whatever their operands; and a step refuses nothing but
a presented request that spells none of the six. -/
def Obligations.OnlyUnknownRequestsAreRefused : Prop :=
  (∀ (s : State) (l : BitVec 3) (ops : Operands) (q : List PortRequest),
    s.seq = .idle → s.requests = ⟨l, ops⟩ :: q → l = 6 ∨ l = 7 →
    step s = .refused (.undecodable (.unknownLabel l))) ∧
  (∀ (s : State) (r : Refusal), step s = .refused r ↔
    s.seq = .idle ∧ ∃ req q why, s.requests = req :: q ∧
      decode (.request req) = .error why ∧ r = .undecodable why) ∧
  (∀ req : PortRequest, (∃ why, decode (.request req) = .error why) ↔
    ∀ i : Instr, i.wellFormed = true → encode i ≠ .request req)

/-- No step ends in a fault (R220: "No request can hang the block, fault it"). -/
def Obligations.StepNeverFaults : Prop :=
  ∀ (s : State) (f : Fault), step s ≠ .fault f

/-! ### Instructions: completion, result and frame -/

/-- The initialization commands of one byte (R101, R105, R106, R107, R112, R113) under CMD_TABLE's default, each at
its step of INITIALIZE, answered `Ok`: one command-phase transmission of its byte, `seq` at the next step, nothing
else changed. For every operand, whatever CFG holds: that `exec` does not compare its operand with the one the block
forms at that step is the model's choice, log 13. The byte of a line of 64 or more is the spec's decision D7, where
the source gives none: log 16. -/
def Obligations.OneByteInitCommandsTransmit : Prop :=
  ∀ (s : State) (later : List Response),
    s.params.cmdTable = standardTable → s.responses = .ok :: later →
    (s.seq = .init 0 →
      exec .displayOff s = .next (s.afterOk ⟨.cmd, [0xAE]⟩ later (.init 1))) ∧
    (∀ l, s.seq = .init 4 →
      exec (.setStartLine l) s =
        .next (s.afterOk ⟨.cmd, [0x40 ||| (l &&& 0x3F)]⟩ later (.init 5))) ∧
    (s.seq = .init 5 →
      exec (.setSegmentRemap .normal) s = .next (s.afterOk ⟨.cmd, [0xA0]⟩ later (.init 6)) ∧
      exec (.setSegmentRemap .remapped) s = .next (s.afterOk ⟨.cmd, [0xA1]⟩ later (.init 6))) ∧
    (s.seq = .init 6 →
      exec (.setComScan .normal) s = .next (s.afterOk ⟨.cmd, [0xC0]⟩ later (.init 7)) ∧
      exec (.setComScan .remapped) s = .next (s.afterOk ⟨.cmd, [0xC8]⟩ later (.init 7))) ∧
    (s.seq = .init 11 →
      exec .entireDisplayResume s = .next (s.afterOk ⟨.cmd, [0xA4]⟩ later (.init 12))) ∧
    (s.seq = .init 12 →
      exec (.setDisplayMode .normal) s = .next (s.afterOk ⟨.cmd, [0xA6]⟩ later (.init 13)) ∧
      exec (.setDisplayMode .inverse) s = .next (s.afterOk ⟨.cmd, [0xA7]⟩ later (.init 13)))

/-- The initialization commands with a raw operand byte (R102, R103, R104, R108, R109, R110, R111) under CMD_TABLE's
default, each at its step, answered `Ok`: the opcode and the operand verbatim. For every operand, whatever CFG holds:
that `exec` does not compare its operand with the one the block forms at that step is the model's choice, log 13. -/
def Obligations.RawOperandInitCommandsTransmit : Prop :=
  ∀ (s : State) (later : List Response) (v : Byte),
    s.params.cmdTable = standardTable → s.responses = .ok :: later →
    (s.seq = .init 1 →
      exec (.setClockDiv v) s = .next (s.afterOk ⟨.cmd, [0xD5, v]⟩ later (.init 2))) ∧
    (s.seq = .init 2 →
      exec (.setMuxRatio v) s = .next (s.afterOk ⟨.cmd, [0xA8, v]⟩ later (.init 3))) ∧
    (s.seq = .init 3 →
      exec (.setDisplayOffset v) s = .next (s.afterOk ⟨.cmd, [0xD3, v]⟩ later (.init 4))) ∧
    (s.seq = .init 7 →
      exec (.setComPins v) s = .next (s.afterOk ⟨.cmd, [0xDA, v]⟩ later (.init 8))) ∧
    (s.seq = .init 8 →
      exec (.setContrast v) s = .next (s.afterOk ⟨.cmd, [0x81, v]⟩ later (.init 9))) ∧
    (s.seq = .init 9 →
      exec (.setPrecharge v) s = .next (s.afterOk ⟨.cmd, [0xD9, v]⟩ later (.init 10))) ∧
    (s.seq = .init 10 →
      exec (.setVcomh v) s = .next (s.afterOk ⟨.cmd, [0xDB, v]⟩ later (.init 11)))

/-- SET_CHARGE_PUMP (R114) under CMD_TABLE's default at its step, answered `Ok`, for its four choices, whatever CFG
holds: that `exec` does not compare its operand with `CFG.charge_pump` is the model's choice, log 13. -/
def Obligations.ChargePumpCommandTransmits : Prop :=
  ∀ (s : State) (later : List Response),
    s.params.cmdTable = standardTable → s.responses = .ok :: later → s.seq = .init 13 →
    exec (.setChargePump .disabled) s = .next (s.afterOk ⟨.cmd, [0x8D, 0x10]⟩ later (.init 14)) ∧
    exec (.setChargePump .v7_5) s = .next (s.afterOk ⟨.cmd, [0x8D, 0x14]⟩ later (.init 14)) ∧
    exec (.setChargePump .v8_5) s = .next (s.afterOk ⟨.cmd, [0x8D, 0x94]⟩ later (.init 14)) ∧
    exec (.setChargePump .v9_0) s = .next (s.afterOk ⟨.cmd, [0x8D, 0x95]⟩ later (.init 14))

/-- DISPLAY_ON (R115) under CMD_TABLE's default at the last step, answered `Ok`: its byte goes out and INITIALIZE
yields `Ok`; FB and CFG are unchanged. -/
def Obligations.DisplayOnCompletesInitialize : Prop :=
  ∀ (s : State) (later : List Response),
    s.params.cmdTable = standardTable → s.responses = .ok :: later → s.seq = .init 14 →
    exec .displayOn s = .next
      { s with
        seq := .idle
        responses := later
        record := s.record ++ [.tx ⟨.cmd, [0xAF]⟩ .ok, .result .runInit .ok] }

/-- The cursor commands (R116, R117, R118), under every command table, at their positions of a page transfer, answered
`Ok`, for every page and column. The block forms only the page of the position and column 0 there (R192): that `exec`
takes the other pages and columns too is the model's choice, log 13. -/
def Obligations.CursorCommandsTransmit : Prop :=
  ∀ (s : State) (later : List Response) (src : Src) (p : Fin 8),
    s.responses = .ok :: later →
    (∀ q : Fin 8, s.seq = .flush src p .pageSel →
      exec (.setPage q) s =
        .next (s.afterOk ⟨.cmd, [0xB0 ||| BitVec.ofNat 8 q.val]⟩ later (.flush src p .colLow))) ∧
    (∀ c : Fin 128, s.seq = .flush src p .colLow →
      exec (.setColLow c) s =
        .next (s.afterOk ⟨.cmd, [BitVec.ofNat 8 c.val &&& 0x0F]⟩ later (.flush src p .colHigh))) ∧
    (∀ c : Fin 128, s.seq = .flush src p .colHigh →
      exec (.setColHigh c) s =
        .next (s.afterOk ⟨.cmd, [0x10 ||| ((BitVec.ofNat 8 c.val >>> 4) &&& 0x0F)]⟩ later
          (.flush src p .data)))

/-- PAGE_DATA (R73) at a Data position, answered `Ok`: its 128 bytes go out in the data phase; before page 7 `seq`
moves to the next page's select, and nothing else changes. The block forms only the page of R192 there: that `exec`
takes every 128 bytes is the model's choice, log 13. -/
def Obligations.PageDataTransmits : Prop :=
  ∀ (s : State) (later : List Response) (src : Src) (p : Fin 8) (d : List Byte)
    (h : p.val + 1 < 8),
    d.length = 128 → s.responses = .ok :: later → s.seq = .flush src p .data →
    exec (.pageData d) s =
      .next (s.afterOk ⟨.data, d⟩ later (.flush src ⟨p.val + 1, h⟩ .pageSel))

/-- After the last page is answered `Ok`, FLUSH clears FB exactly when CLEAR_AFTER_FLUSH, and CLEAR_SCREEN never; the
request yields `Ok`, and nothing else changes (R196, R197). The block forms only the page of R192 there: that `exec`
takes every 128 bytes is the model's choice, log 13. -/
def Obligations.LastPageFinishesTheFlush : Prop :=
  ∀ (s : State) (later : List Response) (d : List Byte),
    d.length = 128 → s.responses = .ok :: later →
    (s.seq = .flush .buf 7 .data → ∃ t, exec (.pageData d) s = .next t ∧
      (∀ p c, t.fbRead p c = if s.params.clearAfterFlush then 0 else s.fbRead p c) ∧
      t = { s with
            fb := t.fb
            seq := .idle
            responses := later
            record := s.record ++ [.tx ⟨.data, d⟩ .ok, .result .flush .ok] }) ∧
    (s.seq = .flush .zero 7 .data →
      exec (.pageData d) s = .next
        { s with
          seq := .idle
          responses := later
          record := s.record ++ [.tx ⟨.data, d⟩ .ok, .result .clearScreen .ok] })

/-- Any transmission answered `Err(e)` ends the request in progress: `seq` is Idle, TransportFailure(e) is the result,
what was sent stays in the record, and FB and CFG are as they were (R224, R149). The transmission is any of its row at
`seq`: that `exec` takes operands other than the one the block forms there is the model's choice, log 13. -/
def Obligations.FailedTransmissionEndsTheRequest : Prop :=
  ∀ (s : State) (i req : Instr) (e : TransportError) (later : List Response),
    i.wellFormed = true → s.seq.row s.cfg = some i.row → s.seq.owner = some req →
    s.responses = .err e :: later →
    exec i s = .next (s.afterErr (txOf s.params.cmdTable i) e later req)

/-- R140: SET_CONFIG replaces all of CFG, yields `Ok`, emits nothing and changes nothing else. -/
def Obligations.SetConfigReplacesTheConfiguration : Prop :=
  ∀ (s : State) (c : Cfg), s.seq = .idle →
    exec (.setConfig c) s =
      .next { s with cfg := c, record := s.record ++ [.result (.setConfig c) .ok] }

/-- The accept step of INITIALIZE, FLUSH and CLEAR_SCREEN (R33): `seq` moves to the first position and nothing else
changes; no result is yielded yet. -/
def Obligations.SequenceRequestsStart : Prop :=
  ∀ s : State, s.seq = .idle →
    exec .runInit s = .next { s with seq := .init 0 } ∧
    exec .flush s = .next { s with seq := .flush .buf 0 .pageSel } ∧
    exec .clearScreen s = .next { s with seq := .flush .zero 0 .pageSel }

/-- R172: SET_PIXEL on of an in-range coordinate ORs in its bit; every other pixel and every other part of the state is
unchanged, and the result is `Ok`. -/
def Obligations.SetPixelOnSetsTheBit : Prop :=
  ∀ (s : State) (x y : Int), s.fb.wf = true → s.seq = .idle → InRange x y →
    ∃ (t : State) (w : PixelPlace), exec (.setPixel x y true) s = .next t ∧
      (w.page.val : Int) = y / 8 ∧ (w.column.val : Int) = x ∧ (w.bit.val : Int) = y % 8 ∧
      t.fbRead w.page w.column = s.fbRead w.page w.column ||| (1#8 <<< w.bit.val) ∧
      t.pixel w = true ∧ (∀ w', w' ≠ w → t.pixel w' = s.pixel w') ∧
      t = { s with fb := t.fb, record := s.record ++ [.result (.setPixel x y true) .ok] }

/-- R173: SET_PIXEL off of an in-range coordinate clears its bit under `Clear` and leaves FB unchanged under `Ignore`;
nothing else changes, and the result is `Ok`. -/
def Obligations.SetPixelOffFollowsThePolicy : Prop :=
  ∀ (s : State) (x y : Int), s.fb.wf = true → s.seq = .idle → InRange x y →
    ∃ (t : State) (w : PixelPlace), exec (.setPixel x y false) s = .next t ∧
      (w.page.val : Int) = y / 8 ∧ (w.column.val : Int) = x ∧ (w.bit.val : Int) = y % 8 ∧
      (s.params.pixelOff = .clear →
        t.pixel w = false ∧ ∀ w', w' ≠ w → t.pixel w' = s.pixel w') ∧
      (s.params.pixelOff = .ignore → t.fb = s.fb) ∧
      t = { s with fb := t.fb, record := s.record ++ [.result (.setPixel x y false) .ok] }

/-- R171: SET_PIXEL out of range yields BoundaryViolation(x, y) and changes nothing else; the block stays ready. -/
def Obligations.SetPixelOutOfRangeIsReported : Prop :=
  ∀ (s : State) (x y : Int) (on : Bool), s.seq = .idle →
    (x < 0 ∨ 127 < x ∨ y < 0 ∨ 63 < y) →
    exec (.setPixel x y on) s =
      .next { s with record := s.record ++ [.result (.setPixel x y on) (.boundaryViolation x y)] }

/-- R174: whatever its operands and the policy, SET_PIXEL changes no pixel but its own, neither reads nor writes CFG, and
leaves seq and the transcript as they were. -/
def Obligations.SetPixelChangesOneBitAtMost : Prop :=
  ∀ (s t : State) (x y : Int) (on : Bool), s.fb.wf = true →
    exec (.setPixel x y on) s = .next t →
    (∀ w : PixelPlace, ¬ (w.x = x ∧ w.y = y) → t.pixel w = s.pixel w) ∧
    t.cfg = s.cfg ∧ t.seq = s.seq ∧ t.transcript = s.transcript ∧
    ∀ c, exec (.setPixel x y on) (s.withCfg c) = .next (t.withCfg c)

/-- R175: REPLACE_FROM_RAW makes FB the grid, byte for byte, in one step that emits nothing and changes nothing else. -/
def Obligations.ReplaceFromRawReadsBack : Prop :=
  ∀ (s : State) (pages : List (List Byte)), s.fb.wf = true → s.seq = .idle →
    gridShape pages = true →
    ∃ t : State, exec (.replaceFromRaw pages) s = .next t ∧
      (∀ (p : Fin 8) (c : Fin 128), (pages[p.val]?.bind (·[c.val]?)) = some (t.fbRead p c)) ∧
      t = { s with fb := t.fb, record := s.record ++ [.result (.replaceFromRaw pages) .ok] }

/-- Every instruction answers a next state: a well-formed request in `Idle` (R228), and a well-formed command or page at
a position of its row, where it transmits if a response is at hand. Two clauses are the model's choice: with no response
the next state is the same state, the command waits (log 2); and every operand of the row is taken, not only the one
the block forms at that position (log 13). -/
def Obligations.EveryInstructionAnswersInItsPlace : Prop :=
  ∀ (i : Instr) (s : State), i.wellFormed = true →
    (i.carrier = .request → s.seq = .idle) →
    (i.carrier ≠ .request → s.seq.row s.cfg = some i.row) →
    ∃ t, exec i s = .next t

/-- Elsewhere `exec` refuses by name, and it never faults: a request while busy (log 14), a command or page off its
position (log 13). The model's choice; no step asks for it. -/
def Obligations.ExecRefusesOnlyOutOfPlace : Prop :=
  ∀ (i : Instr) (s : State), i.wellFormed = true →
    (∀ r, exec i s = .refused r ↔
      (i.carrier = .request ∧ s.seq ≠ .idle ∧ r = .requestWhileBusy) ∨
      (i.carrier ≠ .request ∧ s.seq.row s.cfg ≠ some i.row ∧ r = .offSequence)) ∧
    (∀ f, exec i s ≠ .fault f)

/-! ### Whole requests -/

/-- R143, R149: INITIALIZE as one function of the responses, under every command table. All `Ok`: the fifteen
transmissions in order and `Ok`. The first `Err(e)` at step `n`: those before it, it, and TransportFailure(e).
Nothing but the ports and the record changes. -/
def Obligations.InitializeRunsItsProgram : Prop :=
  ∀ (s : State) (q : List PortRequest),
    s.seq = .idle → s.requests = ⟨3, .none⟩ :: q →
    (∀ later, s.responses = List.replicate 15 .ok ++ later →
      runSteps 16 s = .next
        { s with
          requests := q
          responses := later
          record := s.record ++ okEvents s.params.cmdTable (initProgram s.cfg) ++
            [.result .runInit .ok] }) ∧
    (∀ (n : Fin 15) (e : TransportError) (later : List Response),
      s.responses = List.replicate n.val .ok ++ .err e :: later →
      runSteps (n.val + 2) s = .next
        { s with
          requests := q
          responses := later
          record := s.record ++ okEvents s.params.cmdTable ((initProgram s.cfg).take n.val) ++
            [ .tx (txOf s.params.cmdTable (initCmd n s.cfg)) (.err e),
              .result .runInit (.transportFailure e) ] })

/-- R190, R195: FLUSH as one function of the responses, under every command table. All `Ok`: the thirty-two
transmissions of the FB it was accepted with, `Ok`, and FB cleared exactly when CLEAR_AFTER_FLUSH. The first `Err(e)`
at position `4 p + j`: those before it, it, TransportFailure(e), and FB unchanged. -/
def Obligations.FlushSendsEightPages : Prop :=
  ∀ (s : State) (q : List PortRequest),
    s.seq = .idle → s.requests = ⟨4, .none⟩ :: q →
    (∀ later, s.responses = List.replicate 32 .ok ++ later →
      runSteps 33 s = .next
        { s with
          fb := if s.params.clearAfterFlush then [] else s.fb
          requests := q
          responses := later
          record := s.record ++ okEvents s.params.cmdTable (flushProgram .buf s.fb) ++
            [.result .flush .ok] }) ∧
    (∀ (p : Fin 8) (ph : PagePhase) (e : TransportError) (later : List Response),
      s.responses = List.replicate (4 * p.val + ph.index) .ok ++ .err e :: later →
      runSteps (4 * p.val + ph.index + 2) s = .next
        { s with
          requests := q
          responses := later
          record := s.record ++
            okEvents s.params.cmdTable ((flushProgram .buf s.fb).take (4 * p.val + ph.index)) ++
            [ .tx (txOf s.params.cmdTable (flushInstr .buf p ph s.fb)) (.err e),
              .result .flush (.transportFailure e) ] })

/-- R197: CLEAR_SCREEN as one function of the responses: FLUSH's transmissions with zero pages, FB unchanged in every
case, whatever CLEAR_AFTER_FLUSH is. -/
def Obligations.ClearScreenSendsEightZeroPages : Prop :=
  ∀ (s : State) (q : List PortRequest),
    s.seq = .idle → s.requests = ⟨5, .none⟩ :: q →
    (∀ later, s.responses = List.replicate 32 .ok ++ later →
      runSteps 33 s = .next
        { s with
          requests := q
          responses := later
          record := s.record ++ okEvents s.params.cmdTable (flushProgram .zero s.fb) ++
            [.result .clearScreen .ok] }) ∧
    (∀ (p : Fin 8) (ph : PagePhase) (e : TransportError) (later : List Response),
      s.responses = List.replicate (4 * p.val + ph.index) .ok ++ .err e :: later →
      runSteps (4 * p.val + ph.index + 2) s = .next
        { s with
          requests := q
          responses := later
          record := s.record ++
            okEvents s.params.cmdTable ((flushProgram .zero s.fb).take (4 * p.val + ph.index)) ++
            [ .tx (txOf s.params.cmdTable (flushInstr .zero p ph s.fb)) (.err e),
              .result .clearScreen (.transportFailure e) ] })

/-- R199: a flush has thirty-two transmissions: twenty-four command-phase of one byte, eight data-phase of 128 bytes;
position `4 p + j` is phase `j` of page `p` (R191). -/
def Obligations.FlushHasThirtyTwoTransmissions : Prop :=
  ∀ (t : CmdTable) (src : Src) (fb : Memory),
    (flushProgram src fb).length = 32 ∧
    (∀ (p : Fin 8) (ph : PagePhase),
      (flushProgram src fb)[4 * p.val + ph.index]? = some (flushInstr src p ph fb)) ∧
    (((flushProgram src fb).map (txOf t)).filter
      (fun x => x.phase = .cmd ∧ x.bytes.length = 1)).length = 24 ∧
    (((flushProgram src fb).map (txOf t)).filter
      (fun x => x.phase = .data ∧ x.bytes.length = 128)).length = 8

/-- R151: under CMD_TABLE's default, the preset's initialization and the default's differ exactly at steps 5, 6, 8 and
10, for every legal pair of preset bytes and every default with Normal orientation. -/
def Obligations.PresetChangesFourTransmissions : Prop :=
  ∀ (dflt : Cfg) (pc pv : Byte) (k : Fin 15),
    dflt.segmentRemap = .normal → dflt.comScan = .normal → PresetLegal dflt pc pv →
    (txOf standardTable (initCmd k (presetConfig dflt pc pv)) =
        txOf standardTable (initCmd k dflt) ↔
      k ∉ ([5, 6, 8, 10] : List (Fin 15)))

/-- R35, R32: a busy block with enough responses, whatever they are, ends its request within 32 steps, with exactly one
result, for the request in progress. -/
def Obligations.RequestEndsWithinThirtyTwoSteps : Prop :=
  ∀ (s : State) (req : Instr), s.seq.owner = some req → 32 ≤ s.responses.length →
    ∃ (n : Nat) (t : State) (res : Result), n ≤ 32 ∧ runSteps n s = .next t ∧ t.seq = .idle ∧
      t.results = s.results ++ [(req, res)]

/-! ### What every step keeps -/

/-- The state after reset meets the invariant, under every value of the parameters. -/
def Obligations.ResetMeetsTheInvariant : Prop :=
  ∀ p : Params, (State.resetWith p).Inv

/-- Every step keeps the invariant: FB in its canonical form, a record of transmissions of the legal shapes (R31) and
of results their requests can yield (R221), and a request in progress that has sent exactly its sequence up to `seq`,
all answered `Ok` (R147, R191). -/
def Obligations.StepKeepsTheInvariant : Prop :=
  ∀ s t : State, s.Inv → step s = .next t → t.Inv

/-- R29: no step changes a parameter. -/
def Obligations.StepKeepsTheParameters : Prop :=
  ∀ s t : State, step s = .next t → t.params = s.params

/-- CFG is written only by SET_CONFIG, with the record presented (R26). -/
def Obligations.OnlySetConfigWritesCfg : Prop :=
  ∀ s t : State, step s = .next t → t.cfg ≠ s.cfg →
    ∃ c q, s.seq = .idle ∧ s.requests = ⟨2, .config c⟩ :: q ∧ t.cfg = c

/-- FB is written only by SET_PIXEL in range, by REPLACE_FROM_RAW, and by FLUSH's finish when CLEAR_AFTER_FLUSH (R26). -/
def Obligations.OnlyThreeRequestsWriteFb : Prop :=
  ∀ s t : State, step s = .next t → t.fb ≠ s.fb →
    (s.seq = .idle ∧ ∃ r q, s.requests = r :: q ∧
      ((∃ x y on, decode (.request r) = .ok (.setPixel x y on) ∧ InRange x y) ∨
        ∃ pages, decode (.request r) = .ok (.replaceFromRaw pages))) ∨
    (s.seq = .flush .buf 7 .data ∧ s.params.clearAfterFlush = true ∧
      ∃ later, s.responses = .ok :: later)

/-- INITIALIZE does not look at FB, and a flush does not look at CFG (R26's access table). -/
def Obligations.SequencesReadOnlyTheirOwnState : Prop :=
  (∀ (s : State) (k : Fin 15) (m : Memory), s.seq = .init k →
    step (s.withFb m) = mapNext (fun t => t.withFb m) (step s)) ∧
  (∀ (s : State) (src : Src) (p : Fin 8) (ph : PagePhase) (c : Cfg), s.seq = .flush src p ph →
    step (s.withCfg c) = mapNext (fun t => t.withCfg c) (step s))

/-- R150: while INITIALIZE runs, no state of the block besides `seq` changes; and no request is ever refused for want of
an earlier one: an idle block takes a step for every request presented that spells one. -/
def Obligations.InitializeChangesOnlySeq : Prop :=
  (∀ (s t : State) (k : Fin 15), s.seq = .init k → step s = .next t →
    t.fb = s.fb ∧ t.cfg = s.cfg ∧ t.params = s.params ∧ t.requests = s.requests) ∧
  (∀ (s : State) (r : PortRequest) (q : List PortRequest) (i : Instr),
    s.seq = .idle → s.requests = r :: q → decode (.request r) = .ok i →
    ∃ t, step s = .next t ∧ t.requests = q)

/-- The record only grows, by one transmission and one result at most in a step; a step that changes `seq` from a busy
position goes to the following one of the same request or to `Idle` with a result (R22, R36, R225). -/
def Obligations.RecordGrowsWithTheSequence : Prop :=
  ∀ s t : State, step s = .next t →
    ∃ txs ress : List Event, t.record = s.record ++ txs ++ ress ∧ txs.length ≤ 1 ∧ ress.length ≤ 1 ∧
      (∀ e ∈ txs, ∃ x r, e = .tx x r) ∧ (∀ e ∈ ress, ∃ i r, e = .result i r) ∧
      (s.seq ≠ .idle →
        (t = s ∧ s.responses = []) ∨
        (t.seq.owner = s.seq.owner ∧ t.seq.number = s.seq.number + 1 ∧ ress = []) ∨
        (t.seq = .idle ∧ ress ≠ []))

/-- R222: the block does not inspect the transport's error values: renaming them before a step or after it is the same. -/
def Obligations.TransportErrorsAreNotInspected : Prop :=
  ∀ (s : State) (f : TransportError → TransportError),
    step (s.mapErr f) = mapNext (fun t => t.mapErr f) (step s)
end

