-- ==== Sys2Proof/Laws/Memory.lean ====
section
/-! SUPPORT. The laws of the framebuffer memory: read after write, and that every operation keeps the canonical
form. -/

namespace Sys2Proof.Machine

@[simp] theorem Memory.read_nil (a : Nat) : Memory.read [] a = 0#8 := rfl

theorem Memory.read_of_wfFrom {m : Memory} {lo a : Nat} (h : Memory.wfFrom lo m = true)
    (ha : a < lo) : m.read a = 0#8 := by
  induction m generalizing lo with
  | nil => rfl
  | cons c m ih =>
    obtain ⟨b, w⟩ := c
    simp only [Memory.wfFrom, Bool.and_eq_true, decide_eq_true_eq] at h
    have : a ≠ b := by omega
    simp only [Memory.read, this, if_false]
    exact ih h.2 (by omega)

theorem Memory.wfFrom_mono {m : Memory} {lo lo' : Nat} (h : Memory.wfFrom lo m = true)
    (hl : lo' ≤ lo) : Memory.wfFrom lo' m = true := by
  cases m with
  | nil => rfl
  | cons c m =>
    obtain ⟨b, w⟩ := c
    simp only [Memory.wfFrom, Bool.and_eq_true, decide_eq_true_eq] at h ⊢
    exact ⟨⟨⟨by omega, h.1.1.2⟩, h.1.2⟩, h.2⟩

/-- Past the framebuffer a canonical memory reads zero. -/
theorem Memory.read_of_ge {m : Memory} {lo a : Nat} (h : Memory.wfFrom lo m = true)
    (ha : fbBytes ≤ a) : m.read a = 0#8 := by
  induction m generalizing lo with
  | nil => rfl
  | cons c m ih =>
    obtain ⟨b, w⟩ := c
    simp only [Memory.wfFrom, Bool.and_eq_true, decide_eq_true_eq] at h
    have : a ≠ b := by omega
    simp only [Memory.read, this, if_false]
    exact ih h.2

/-- Reading after a write (from a canonical memory). -/
theorem Memory.read_write {m : Memory} {lo : Nat} (h : Memory.wfFrom lo m = true) (a a' : Nat)
    (v : Byte) : (m.write a v).read a' = if a' = a then v else m.read a' := by
  induction m generalizing lo with
  | nil =>
    by_cases hv : v = 0#8 <;> by_cases e : a' = a <;> simp [Memory.write, Memory.read, hv, e]
  | cons c m ih =>
    obtain ⟨b, w⟩ := c
    simp only [Memory.wfFrom, Bool.and_eq_true, decide_eq_true_eq] at h
    have hz : ∀ x, x < b + 1 → Memory.read m x = 0#8 := fun x hx => Memory.read_of_wfFrom h.2 hx
    have hi := ih h.2
    by_cases h1 : a < b
    · by_cases hv : v = 0#8
      · by_cases e : a' = a
        · have : a ≠ b := by omega
          simp [Memory.write, Memory.read, h1, hv, e, this, hz a (by omega)]
        · simp [Memory.write, h1, hv, e]
      · by_cases e : a' = a <;> simp [Memory.write, Memory.read, h1, hv, e]
    · by_cases h2 : a = b
      · by_cases hv : v = 0#8
        · by_cases e : a' = b
          · simp [Memory.write, h2, hv, e, hz b (by omega)]
          · simp [Memory.write, Memory.read, h2, hv, e]
        · by_cases e : a' = b <;> simp [Memory.write, Memory.read, h2, hv, e]
      · by_cases e : a' = b
        · have : ¬ b = a := by omega
          simp [Memory.write, Memory.read, h1, h2, e, this]
        · simp [Memory.write, Memory.read, h1, h2, e, hi]

theorem Memory.wfFrom_write {m : Memory} {lo : Nat} (h : Memory.wfFrom lo m = true) {a : Nat}
    (ha : a < fbBytes) (hl : lo ≤ a) (v : Byte) : Memory.wfFrom lo (m.write a v) = true := by
  induction m generalizing lo with
  | nil =>
    by_cases hv : v = 0#8 <;> simp [Memory.write, Memory.wfFrom, hv, ha, hl]
  | cons c m ih =>
    obtain ⟨b, w⟩ := c
    have h' := h
    simp only [Memory.wfFrom, Bool.and_eq_true, decide_eq_true_eq] at h'
    obtain ⟨⟨⟨hlb, hb⟩, hw⟩, hm⟩ := h'
    by_cases h1 : a < b
    · by_cases hv : v = 0#8
      · simpa [Memory.write, h1, hv] using h
      · have h3 : a + 1 ≤ b := h1
        simp [Memory.write, h1, hv, Memory.wfFrom, ha, hl, hb, hw, hm, h3]
    · by_cases h2 : a = b
      · subst h2
        by_cases hv : v = 0#8
        · simpa [Memory.write, hv] using Memory.wfFrom_mono hm (by omega)
        · simp [Memory.write, hv, Memory.wfFrom, hb, hlb, hm]
      · have hi := ih hm (by omega)
        simp [Memory.write, h1, h2, Memory.wfFrom, hlb, hb, hw, hi]

/-- A write of one byte keeps the canonical form. -/
theorem Memory.wf_write {m : Memory} (h : m.wf = true) {a : Nat} (ha : a < fbBytes) (v : Byte) :
    (m.write a v).wf = true :=
  Memory.wfFrom_write h ha (Nat.zero_le _) v

/-- MemWrite keeps the canonical form. -/
theorem Memory.wf_writeBytes {m : Memory} (h : m.wf = true) {a : Nat} (vs : List Byte)
    (ha : a + vs.length ≤ fbBytes) : (m.writeBytes a vs).wf = true := by
  induction vs generalizing m a with
  | nil => exact h
  | cons v vs ih =>
    simp only [List.length_cons] at ha
    exact ih (Memory.wf_write h (by omega) v) (by omega)

/-- What a byte reads after MemWrite (R51). -/
theorem Memory.read_writeBytes {m : Memory} (h : m.wf = true) {a : Nat} (vs : List Byte)
    (ha : a + vs.length ≤ fbBytes) (x : Nat) :
    (m.writeBytes a vs).read x =
      if a ≤ x ∧ x < a + vs.length then vs.getD (x - a) 0#8 else m.read x := by
  induction vs generalizing m a with
  | nil =>
    have : ¬ (a ≤ x ∧ x < a + ([] : List Byte).length) := by simp
    rw [if_neg this]; rfl
  | cons v vs ih =>
    simp only [List.length_cons] at ha ⊢
    rw [Memory.writeBytes, ih (Memory.wf_write h (by omega) v) (by omega), Memory.read_write h]
    by_cases e : x = a
    · subst e; simp
    · by_cases hx : a + 1 ≤ x ∧ x < a + 1 + vs.length
      · have h1 : a ≤ x ∧ x < a + (vs.length + 1) := by omega
        rw [if_pos hx, if_pos h1, show x - a = (x - (a + 1)) + 1 by omega, List.getD_cons_succ]
      · have h1 : ¬ (a ≤ x ∧ x < a + (vs.length + 1)) := by omega
        rw [if_neg hx, if_neg e, if_neg h1]

@[simp] theorem Memory.length_readBytes (m : Memory) (a n : Nat) :
    (m.readBytes a n).length = n := by
  induction n generalizing a with
  | zero => rfl
  | succ n ih => simp [Memory.readBytes, ih]

/-- MemRead's bytes are the bytes read one by one (R51). -/
theorem Memory.getD_readBytes (m : Memory) (a : Nat) {n k : Nat} (hk : k < n) (d : Byte) :
    (m.readBytes a n).getD k d = m.read (a + k) := by
  induction n generalizing a k with
  | zero => omega
  | succ n ih =>
    cases k with
    | zero => rfl
    | succ k =>
      rw [Memory.readBytes, List.getD_cons_succ, ih (a + 1) (by omega)]
      congr 1; omega

theorem Memory.eq_of_wfFrom {m m' : Memory} {lo : Nat} (h : Memory.wfFrom lo m = true)
    (h' : Memory.wfFrom lo m' = true) (hr : ∀ a, m.read a = m'.read a) : m = m' := by
  induction m generalizing lo m' with
  | nil =>
    cases m' with
    | nil => rfl
    | cons c m' =>
      obtain ⟨b, w⟩ := c
      simp only [Memory.wfFrom, Bool.and_eq_true, decide_eq_true_eq] at h'
      have := hr b
      simp [Memory.read] at this
      exact absurd this.symm h'.1.2
  | cons c m ih =>
    obtain ⟨b, w⟩ := c
    simp only [Memory.wfFrom, Bool.and_eq_true, decide_eq_true_eq] at h
    cases m' with
    | nil =>
      have := hr b
      simp [Memory.read] at this
      exact absurd this h.1.2
    | cons c' m' =>
      obtain ⟨b', w'⟩ := c'
      simp only [Memory.wfFrom, Bool.and_eq_true, decide_eq_true_eq] at h'
      have hb : b = b' := by
        rcases Nat.lt_trichotomy b b' with hlt | heq | hgt
        · have := hr b
          have hne : b ≠ b' := by omega
          rw [Memory.read, if_pos rfl, Memory.read, if_neg hne,
            Memory.read_of_wfFrom h'.2 (by omega)] at this
          exact absurd this h.1.2
        · exact heq
        · have := hr b'
          have hne : b' ≠ b := by omega
          rw [Memory.read, if_neg hne, Memory.read_of_wfFrom h.2 (by omega), Memory.read,
            if_pos rfl] at this
          exact absurd this.symm h'.1.2
      subst hb
      have hw : w = w' := by simpa [Memory.read] using hr b
      subst hw
      rw [ih h.2 h'.2 fun a => ?_]
      have := hr a
      by_cases e : a = b
      · subst e
        rw [Memory.read_of_wfFrom h.2 (by omega), Memory.read_of_wfFrom h'.2 (by omega)]
      · simpa [Memory.read, e] using this

/-- Canonical framebuffers that read alike are the same list. -/
theorem Memory.eq_of_wf {m m' : Memory} (h : m.wf = true) (h' : m'.wf = true)
    (hr : ∀ a, m.read a = m'.read a) : m = m' :=
  Memory.eq_of_wfFrom h h' hr

theorem linearIndex_lt (p : Fin 8) (c : Fin 128) : linearIndex p c < fbBytes := by
  have := p.isLt; have := c.isLt
  simp only [linearIndex, fbBytes]; omega

/-- The linear index tells page and column (R51). -/
theorem linearIndex_inj {p p' : Fin 8} {c c' : Fin 128}
    (h : linearIndex p c = linearIndex p' c') : p = p' ∧ c = c' := by
  have := p.isLt; have := c.isLt; have := p'.isLt; have := c'.isLt
  simp only [linearIndex] at h
  exact ⟨Fin.ext (by omega), Fin.ext (by omega)⟩

/-- `FB[p][c] <- v`, read back anywhere. -/
theorem State.fbRead_fbWrite {s : State} (h : s.fb.wf = true) (p p' : Fin 8) (c c' : Fin 128)
    (v : Byte) :
    (s.fbWrite p c v).fbRead p' c' = if p' = p ∧ c' = c then v else s.fbRead p' c' := by
  unfold State.fbRead State.fbWrite
  rw [Memory.read_write h]
  by_cases e : p' = p ∧ c' = c
  · obtain ⟨rfl, rfl⟩ := e; simp
  · rw [if_neg e, if_neg fun he => e (linearIndex_inj he)]

/-- `FB[p][c] <- v` keeps the canonical form. -/
theorem State.wf_fbWrite {s : State} (h : s.fb.wf = true) (p : Fin 8) (c : Fin 128) (v : Byte) :
    (s.fbWrite p c v).fb.wf = true :=
  Memory.wf_write h (linearIndex_lt p c) v

/-- MemRead of a page is in range (R51). -/
theorem State.memRead_page (s : State) (p : Fin 8) :
    s.memRead (128 * p.val) 128 = .ok (s.fb.readBytes (128 * p.val) 128) := by
  have := p.isLt
  unfold State.memRead fbBytes
  rw [if_pos (by omega)]

/-- The framebuffer after reset is canonical. -/
theorem reset_wf : State.reset.fb.wf = true := rfl

end Sys2Proof.Machine
end

