-- ==== Sys2Proof/Laws/State.lean ====
section
/-! SUPPORT. One lemma per field per update of the state, so that no later proof unfolds a record update. -/

namespace Sys2Proof.Machine

variable (s : State)

section finishWith
variable (req : Instr) (res : Result)

@[simp] theorem State.finishWith_fb : (s.finishWith req res).fb = s.fb := rfl
@[simp] theorem State.finishWith_cfg : (s.finishWith req res).cfg = s.cfg := rfl
@[simp] theorem State.finishWith_seq : (s.finishWith req res).seq = .idle := rfl
@[simp] theorem State.finishWith_requests : (s.finishWith req res).requests = s.requests := rfl
@[simp] theorem State.finishWith_responses : (s.finishWith req res).responses = s.responses := rfl
@[simp] theorem State.finishWith_record :
    (s.finishWith req res).record = s.record ++ [.result req res] := rfl
@[simp] theorem State.finishWith_params : (s.finishWith req res).params = s.params := rfl

/-- Raising an error is ending the request with it (R224). -/
@[simp] theorem State.raise_eq_finishWith : s.raise req res = s.finishWith req res := rfl

end finishWith

section emit
variable (tx : Tx) (resp : Response) (later : List Response)

@[simp] theorem State.emit_fb : (s.emit tx resp later).fb = s.fb := rfl
@[simp] theorem State.emit_cfg : (s.emit tx resp later).cfg = s.cfg := rfl
@[simp] theorem State.emit_seq : (s.emit tx resp later).seq = s.seq := rfl
@[simp] theorem State.emit_requests : (s.emit tx resp later).requests = s.requests := rfl
@[simp] theorem State.emit_responses : (s.emit tx resp later).responses = later := rfl
@[simp] theorem State.emit_record :
    (s.emit tx resp later).record = s.record ++ [.tx tx resp] := rfl
@[simp] theorem State.emit_params : (s.emit tx resp later).params = s.params := rfl

end emit

section fbWrite
variable (p : Fin 8) (c : Fin 128) (v : Byte)

@[simp] theorem State.fbWrite_fb :
    (s.fbWrite p c v).fb = s.fb.write (linearIndex p c) v := rfl
@[simp] theorem State.fbWrite_cfg : (s.fbWrite p c v).cfg = s.cfg := rfl
@[simp] theorem State.fbWrite_seq : (s.fbWrite p c v).seq = s.seq := rfl
@[simp] theorem State.fbWrite_requests : (s.fbWrite p c v).requests = s.requests := rfl
@[simp] theorem State.fbWrite_responses : (s.fbWrite p c v).responses = s.responses := rfl
@[simp] theorem State.fbWrite_record : (s.fbWrite p c v).record = s.record := rfl
@[simp] theorem State.fbWrite_params : (s.fbWrite p c v).params = s.params := rfl

end fbWrite

@[simp] theorem State.clearFb_fb : s.clearFb.fb = [] := rfl
@[simp] theorem State.clearFb_cfg : s.clearFb.cfg = s.cfg := rfl
@[simp] theorem State.clearFb_seq : s.clearFb.seq = s.seq := rfl
@[simp] theorem State.clearFb_requests : s.clearFb.requests = s.requests := rfl
@[simp] theorem State.clearFb_responses : s.clearFb.responses = s.responses := rfl
@[simp] theorem State.clearFb_record : s.clearFb.record = s.record := rfl
@[simp] theorem State.clearFb_params : s.clearFb.params = s.params := rfl

/-- `Finish` changes FB at most (R196). -/
theorem State.finish_eq_self_or_clearFb : s.finish = s ∨ s.finish = s.clearFb := by
  unfold State.finish
  split <;> try exact .inl rfl
  split
  · exact .inr rfl
  · exact .inl rfl

/-- `Finish` leaves every other field alone. -/
theorem State.finish_frame : s.finish.cfg = s.cfg ∧ s.finish.seq = s.seq ∧
    s.finish.requests = s.requests ∧ s.finish.responses = s.responses ∧
    s.finish.record = s.record ∧ s.finish.params = s.params := by
  obtain e | e := s.finish_eq_self_or_clearFb <;> rw [e] <;> exact ⟨rfl, rfl, rfl, rfl, rfl, rfl⟩

@[simp] theorem State.finish_cfg : s.finish.cfg = s.cfg := s.finish_frame.1
@[simp] theorem State.finish_seq : s.finish.seq = s.seq := s.finish_frame.2.1
@[simp] theorem State.finish_requests : s.finish.requests = s.requests := s.finish_frame.2.2.1
@[simp] theorem State.finish_responses : s.finish.responses = s.responses :=
  s.finish_frame.2.2.2.1
@[simp] theorem State.finish_record : s.finish.record = s.record := s.finish_frame.2.2.2.2.1
@[simp] theorem State.finish_params : s.finish.params = s.params := s.finish_frame.2.2.2.2.2

/-- `Finish` clears FB for FLUSH when the parameter says so (R196). -/
theorem State.finish_flush_buf {p : Fin 8} {ph : PagePhase} (h : s.seq = .flush .buf p ph) :
    s.finish = if s.params.clearAfterFlush then s.clearFb else s := by
  unfold State.finish; rw [h]

/-- `Finish` does nothing for CLEAR_SCREEN (R196). -/
theorem State.finish_flush_zero {p : Fin 8} {ph : PagePhase} (h : s.seq = .flush .zero p ph) :
    s.finish = s := by
  unfold State.finish; rw [h]

/-- `Finish` does nothing for INITIALIZE (R145). -/
theorem State.finish_init {k : Fin 15} (h : s.seq = .init k) : s.finish = s := by
  unfold State.finish; rw [h]

section sent
variable (tx : Tx) (later : List Response) (q : Seq) (e : TransportError) (req : Instr)

@[simp] theorem State.afterOk_fb : (s.afterOk tx later q).fb = s.fb := rfl
@[simp] theorem State.afterOk_cfg : (s.afterOk tx later q).cfg = s.cfg := rfl
@[simp] theorem State.afterOk_seq : (s.afterOk tx later q).seq = q := rfl
@[simp] theorem State.afterOk_requests : (s.afterOk tx later q).requests = s.requests := rfl
@[simp] theorem State.afterOk_responses : (s.afterOk tx later q).responses = later := rfl
@[simp] theorem State.afterOk_record :
    (s.afterOk tx later q).record = s.record ++ [.tx tx .ok] := rfl
@[simp] theorem State.afterOk_params : (s.afterOk tx later q).params = s.params := rfl

@[simp] theorem State.afterErr_fb : (s.afterErr tx e later req).fb = s.fb := rfl
@[simp] theorem State.afterErr_cfg : (s.afterErr tx e later req).cfg = s.cfg := rfl
@[simp] theorem State.afterErr_seq : (s.afterErr tx e later req).seq = .idle := rfl
@[simp] theorem State.afterErr_requests : (s.afterErr tx e later req).requests = s.requests := rfl
@[simp] theorem State.afterErr_responses : (s.afterErr tx e later req).responses = later := rfl
@[simp] theorem State.afterErr_record :
    (s.afterErr tx e later req).record =
      s.record ++ [.tx tx (.err e), .result req (.transportFailure e)] := rfl
@[simp] theorem State.afterErr_params : (s.afterErr tx e later req).params = s.params := rfl

end sent

@[simp] theorem State.withRequests_fb (q) : (s.withRequests q).fb = s.fb := rfl
@[simp] theorem State.withRequests_cfg (q) : (s.withRequests q).cfg = s.cfg := rfl
@[simp] theorem State.withRequests_seq (q) : (s.withRequests q).seq = s.seq := rfl
@[simp] theorem State.withRequests_requests (q) : (s.withRequests q).requests = q := rfl
@[simp] theorem State.withRequests_responses (q) : (s.withRequests q).responses = s.responses := rfl
@[simp] theorem State.withRequests_record (q) : (s.withRequests q).record = s.record := rfl
@[simp] theorem State.withRequests_params (q) : (s.withRequests q).params = s.params := rfl

@[simp] theorem State.withFb_fb (m) : (s.withFb m).fb = m := rfl
@[simp] theorem State.withFb_cfg (m) : (s.withFb m).cfg = s.cfg := rfl
@[simp] theorem State.withFb_seq (m) : (s.withFb m).seq = s.seq := rfl
@[simp] theorem State.withFb_requests (m) : (s.withFb m).requests = s.requests := rfl
@[simp] theorem State.withFb_responses (m) : (s.withFb m).responses = s.responses := rfl
@[simp] theorem State.withFb_record (m) : (s.withFb m).record = s.record := rfl
@[simp] theorem State.withFb_params (m) : (s.withFb m).params = s.params := rfl

@[simp] theorem State.withCfg_fb (c) : (s.withCfg c).fb = s.fb := rfl
@[simp] theorem State.withCfg_cfg (c) : (s.withCfg c).cfg = c := rfl
@[simp] theorem State.withCfg_seq (c) : (s.withCfg c).seq = s.seq := rfl
@[simp] theorem State.withCfg_requests (c) : (s.withCfg c).requests = s.requests := rfl
@[simp] theorem State.withCfg_responses (c) : (s.withCfg c).responses = s.responses := rfl
@[simp] theorem State.withCfg_record (c) : (s.withCfg c).record = s.record := rfl
@[simp] theorem State.withCfg_params (c) : (s.withCfg c).params = s.params := rfl

@[simp] theorem State.mapErr_fb (f) : (s.mapErr f).fb = s.fb := rfl
@[simp] theorem State.mapErr_cfg (f) : (s.mapErr f).cfg = s.cfg := rfl
@[simp] theorem State.mapErr_seq (f) : (s.mapErr f).seq = s.seq := rfl
@[simp] theorem State.mapErr_requests (f) : (s.mapErr f).requests = s.requests := rfl
@[simp] theorem State.mapErr_responses (f) :
    (s.mapErr f).responses = s.responses.map (Response.mapErr f) := rfl
@[simp] theorem State.mapErr_record (f) :
    (s.mapErr f).record = s.record.map (Event.mapErr f) := rfl
@[simp] theorem State.mapErr_params (f) : (s.mapErr f).params = s.params := rfl

section resetWith
variable (p : Params)

@[simp] theorem State.resetWith_fb : (State.resetWith p).fb = [] := rfl
@[simp] theorem State.resetWith_cfg : (State.resetWith p).cfg = p.defaultConfig := rfl
@[simp] theorem State.resetWith_seq : (State.resetWith p).seq = .idle := rfl
@[simp] theorem State.resetWith_requests : (State.resetWith p).requests = [] := rfl
@[simp] theorem State.resetWith_responses : (State.resetWith p).responses = [] := rfl
@[simp] theorem State.resetWith_record : (State.resetWith p).record = [] := rfl
@[simp] theorem State.resetWith_params : (State.resetWith p).params = p := rfl

end resetWith

end Sys2Proof.Machine
end

