-- ==== Sys2Proof/Laws/Ops.lean ====
section
/-! SUPPORT. What each shared operation can do, said once: accepting, transmitting, settling, fetching, stepping. -/

namespace Sys2Proof.Machine

variable {s t : State}

/-! ### Accept step -/

theorem acceptWhenIdle_idle (h : s.seq = .idle) (e : Host.Outcome State Fault Refusal) :
    acceptWhenIdle s e = e := by
  unfold acceptWhenIdle; rw [h]

theorem acceptWhenIdle_busy (h : s.seq ≠ .idle) (e : Host.Outcome State Fault Refusal) :
    acceptWhenIdle s e = .refused .requestWhileBusy := by
  unfold acceptWhenIdle; split <;> first | rfl | exact absurd ‹_› h

/-- A request answers a next state only in `Idle`, and then its effect's. -/
theorem acceptWhenIdle_next {e : Host.Outcome State Fault Refusal}
    (h : acceptWhenIdle s e = .next t) : s.seq = .idle ∧ e = .next t := by
  by_cases hi : s.seq = .idle
  · exact ⟨hi, by rwa [acceptWhenIdle_idle hi] at h⟩
  · rw [acceptWhenIdle_busy hi] at h; cases h

/-! ### Grids -/

theorem length_flatGrid {pages : List (List Byte)} (h : gridShape pages = true) :
    (flatGrid pages).length = 1024 := by
  simp only [gridShape, Bool.and_eq_true, beq_iff_eq, List.all_eq_true] at h
  have : (pages.map List.length) = List.replicate 8 128 := by
    apply List.eq_replicate_iff.mpr
    refine ⟨by simpa using h.1, ?_⟩
    intro n hn
    obtain ⟨q, hq, rfl⟩ := List.mem_map.mp hn
    exact h.2 q hq
  rw [flatGrid, List.length_flatten, this]
  rfl

/-- REPLACE_FROM_RAW's one write is in range. -/
theorem memWrite_grid {pages : List (List Byte)} (h : gridShape pages = true) (s : State) :
    s.memWrite 0 (flatGrid pages) = .ok { s with fb := s.fb.writeBytes 0 (flatGrid pages) } := by
  unfold State.memWrite
  rw [if_pos (by rw [length_flatGrid h]; decide)]

/-- `flat(P)[128 p + c] = P[p][c]` (R175). -/
theorem getD_flatGrid {pages : List (List Byte)} (h : gridShape pages = true) (p : Fin 8)
    (c : Fin 128) : (flatGrid pages).getD (linearIndex p c) 0#8 =
      (pages.getD p.val []).getD c.val 0#8 := by
  simp only [gridShape, Bool.and_eq_true, beq_iff_eq, List.all_eq_true] at h
  obtain ⟨hl, ha⟩ := h
  have key : ∀ (ps : List (List Byte)) (n : Nat), (∀ q ∈ ps, q.length = 128) → n < ps.length →
      ps.flatten.getD (128 * n + c.val) 0#8 = (ps.getD n []).getD c.val 0#8 := by
    intro ps
    induction ps with
    | nil => intro n _ hn; simp at hn
    | cons q ps ih =>
      intro n hq hn
      have hq0 : q.length = 128 := hq q (by simp)
      have hc := c.isLt
      cases n with
      | zero =>
        simp only [List.flatten_cons, List.getD_cons_zero, Nat.mul_zero, Nat.zero_add]
        rw [List.getD_append _ _ _ _ (by omega)]
      | succ n =>
        rw [List.flatten_cons, List.getD_append_right _ _ _ _ (by omega), List.getD_cons_succ,
          ← ih n (fun x hx => hq x (by simp [hx])) (by simpa using hn)]
        congr 1
        omega
  exact key pages p.val ha (by rw [hl]; exact p.isLt)

/-- REPLACE_FROM_RAW answers a next state for every well-shaped grid (R175). -/
theorem replaceEffect_of_shape {pages : List (List Byte)} (h : gridShape pages = true) (s : State) :
    replaceEffect pages s =
      .next ({ s with fb := s.fb.writeBytes 0 (flatGrid pages) }.finishWith (.replaceFromRaw pages) .ok) := by
  unfold replaceEffect
  rw [if_pos h, memWrite_grid h]

/-! ### Positions -/

theorem Seq.owner_eq_none {q : Seq} : q.owner = none ↔ q = .idle := by
  cases q with
  | idle => simp [Seq.owner]
  | init k => simp [Seq.owner]
  | flush src p ph => cases src <;> simp [Seq.owner]

/-- Every busy position has an owner, a row and an instruction. -/
theorem Seq.owner_of_busy {q : Seq} (h : q ≠ .idle) : ∃ req, q.owner = some req :=
  Option.ne_none_iff_exists'.mp fun e => h (Seq.owner_eq_none.mp e)

/-- The owner is one of the three transmitting requests (R221). -/
theorem Seq.owner_cases {q : Seq} {req : Instr} (h : q.owner = some req) :
    req = .runInit ∨ req = .flush ∨ req = .clearScreen := by
  cases q with
  | idle => cases h
  | init k => exact .inl (Option.some.inj h).symm
  | flush src p ph =>
    cases src
    · exact .inr (.inl (Option.some.inj h).symm)
    · exact .inr (.inr (Option.some.inj h).symm)

/-- After a request's last position comes `Idle` (R22). -/
theorem Seq.next_of_isLast {q : Seq} (h : q.isLast = true) : q.next = .idle := by
  cases q with
  | idle => rfl
  | init k =>
    simp only [Seq.isLast, beq_iff_eq] at h
    subst h; rfl
  | flush src p ph =>
    cases ph <;> simp only [Seq.isLast, beq_iff_eq, Bool.false_eq_true] at h
    subst h; rfl

/-- `Last` holds of `Init(14)` and of `Flush(src, 7, Data)` only (R34). -/
theorem Seq.isLast_iff {q : Seq} :
    q.isLast = true ↔ q = .init 14 ∨ ∃ src, q = .flush src 7 .data := by
  cases q with
  | idle => simp [Seq.isLast]
  | init k => simp [Seq.isLast]
  | flush src p ph => cases ph <;> simp [Seq.isLast]

/-- Before it the request stays in progress, with the same owner and the next number (R145, R193). -/
theorem Seq.next_of_not_last {q : Seq} (h : q.isLast = false) (hq : q ≠ .idle) :
    q.next ≠ .idle ∧ q.next.owner = q.owner ∧ q.next.number = q.number + 1 := by
  cases q with
  | idle => exact absurd rfl hq
  | init k =>
    have hk : k.val + 1 < 15 := by
      have := k.isLt
      have : k.val ≠ 14 := fun e => by
        have : k = 14 := Fin.ext e
        simp [Seq.isLast, this] at h
      omega
    simp [Seq.next, hk, Seq.owner, Seq.number]
  | flush src p ph =>
    cases ph with
    | pageSel => cases src <;> simp [Seq.next, Seq.owner, Seq.number, PagePhase.index]
    | colLow => cases src <;> simp [Seq.next, Seq.owner, Seq.number, PagePhase.index]
    | colHigh => cases src <;> simp [Seq.next, Seq.owner, Seq.number, PagePhase.index]
    | data =>
      have hp : p.val + 1 < 8 := by
        have := p.isLt
        have : p.val ≠ 7 := fun e => by
          have : p = 7 := Fin.ext e
          simp [Seq.isLast, this] at h
        omega
      cases src <;> simp [Seq.next, hp, Seq.owner, Seq.number, PagePhase.index] <;> omega

/-- The row at a position is the row of the instruction there, whatever the configuration. -/
theorem Seq.row_of_instr {q : Seq} {c : Cfg} {fb : Memory} {i : Instr}
    (h : q.instr c fb = some i) : q.row c = some i.row := by
  cases q with
  | idle => cases h
  | init k => simp only [Seq.instr, Option.some.injEq] at h; subst h; rfl
  | flush src p ph =>
    simp only [Seq.instr, Option.some.injEq] at h
    subst h
    cases ph <;> rfl

/-- The steps of the initialization program are register commands. -/
theorem initCmd_carrier (k : Fin 15) (c : Cfg) : (initCmd k c).carrier = .command := by
  fin_cases k <;> rfl

@[simp] theorem length_pageBytes (src : Src) (p : Fin 8) (fb : Memory) :
    (pageBytes src p fb).length = 128 := by
  cases src <;> simp [pageBytes]

/-- Every instruction of a sequence is well-formed. -/
theorem Seq.wellFormed_instr {q : Seq} {c : Cfg} {fb : Memory} {i : Instr}
    (h : q.instr c fb = some i) : i.wellFormed = true := by
  cases q with
  | idle => cases h
  | init k =>
    simp only [Seq.instr, Option.some.injEq] at h
    subst h
    fin_cases k <;> rfl
  | flush src p ph =>
    simp only [Seq.instr, Option.some.injEq] at h
    subst h
    cases ph <;> simp [flushInstr, Instr.wellFormed]

/-! ### Transmit step -/

/-- The transmit step with a response at hand (R34). -/
theorem transmit_of_response {req : Instr} {resp : Response} {later : List Response}
    (ho : s.seq.owner = some req) (hr : s.responses = resp :: later) (tx : Tx) :
    transmit tx s = .next ((s.emit tx resp later).settle req resp) := by
  unfold transmit; rw [ho, hr]

/-- With no response the transmit step waits. -/
theorem transmit_waits (hq : s.seq ≠ .idle) (hr : s.responses = []) (tx : Tx) :
    transmit tx s = .next s := by
  obtain ⟨req, ho⟩ := Seq.owner_of_busy hq
  unfold transmit; rw [ho, hr]

/-- All a transmit step can do: wait, or emit and settle. -/
theorem transmit_next {tx : Tx} (h : transmit tx s = .next t) :
    (s.seq ≠ .idle ∧ s.responses = [] ∧ t = s) ∨
    ∃ req resp later, s.seq.owner = some req ∧ s.responses = resp :: later ∧
      t = (s.emit tx resp later).settle req resp := by
  by_cases hi : s.seq = .idle
  · unfold transmit at h
    rw [hi] at h
    cases h
  · obtain ⟨req, ho⟩ := Seq.owner_of_busy hi
    cases hr : s.responses with
    | nil =>
      rw [transmit_waits hi hr] at h
      cases h
      exact .inl ⟨hi, rfl, rfl⟩
    | cons resp later =>
      rw [transmit_of_response ho hr] at h
      cases h
      exact .inr ⟨req, resp, later, ho, rfl, rfl⟩

/-- A transmission in its place is a transmit step. -/
theorem transmitInPlace_of_row {i : Instr} (h : s.seq.row s.cfg = some i.row) :
    transmitInPlace i s = transmit (txOf s.params.cmdTable i) s := if_pos h

/-- Off its place it is refused. -/
theorem transmitInPlace_off {i : Instr} (h : s.seq.row s.cfg ≠ some i.row) :
    transmitInPlace i s = .refused .offSequence := if_neg h

/-- A transmission answers a next state only in its place. -/
theorem transmitInPlace_next {i : Instr} (h : transmitInPlace i s = .next t) :
    s.seq.row s.cfg = some i.row ∧ transmit (txOf s.params.cmdTable i) s = .next t := by
  unfold transmitInPlace at h
  split at h
  · exact ⟨‹_›, h⟩
  · cases h

@[simp] theorem settle_ok_last {req : Instr} (h : s.seq.isLast = true) :
    s.settle req .ok = s.finish.finishWith req .ok := by
  simp [State.settle, h]

@[simp] theorem settle_ok_not_last {req : Instr} (h : s.seq.isLast = false) :
    s.settle req .ok = { s with seq := s.seq.next } := by
  simp [State.settle, h]

@[simp] theorem settle_err {req : Instr} (e : TransportError) :
    s.settle req (.err e) = s.finishWith req (.transportFailure e) := rfl

/-- What settling leaves alone, whatever the response. -/
theorem settle_frame (s : State) (req : Instr) (resp : Response) :
    (s.settle req resp).cfg = s.cfg ∧ (s.settle req resp).requests = s.requests ∧
    (s.settle req resp).responses = s.responses ∧ (s.settle req resp).params = s.params := by
  cases resp with
  | err e => exact ⟨rfl, rfl, rfl, rfl⟩
  | ok =>
    cases h : s.seq.isLast
    · rw [settle_ok_not_last h]; exact ⟨rfl, rfl, rfl, rfl⟩
    · rw [settle_ok_last h]; simp

/-! ### The instruction of a position, executed -/

/-- `exec` of the instruction a position has is its transmission. -/
theorem exec_of_instr {i : Instr} (h : s.seq.instr s.cfg s.fb = some i) :
    exec i s = transmitInPlace i s := by
  cases hq : s.seq with
  | idle => rw [hq] at h; cases h
  | init k =>
    rw [hq] at h
    simp only [Seq.instr, Option.some.injEq] at h
    subst h
    fin_cases k <;> rfl
  | flush src p ph =>
    rw [hq] at h
    simp only [Seq.instr, Option.some.injEq] at h
    subst h
    cases ph <;> try rfl
    exact if_pos (length_pageBytes src p s.fb)

/-! ### Fetch and step -/

/-- Busy, the block runs the instruction of its position (R144, R192). -/
theorem fetch_of_instr {i : Instr} (h : s.seq.instr s.cfg s.fb = some i) : fetch s = .run i s := by
  unfold fetch
  cases hq : s.seq with
  | idle => rw [hq] at h; cases h
  | init k => rw [hq] at h; exact congrArg (Fetched.run · s) (Option.some.inj h)
  | flush src p ph =>
    rw [hq] at h
    simp only [Seq.instr, Option.some.injEq] at h
    subst h
    cases src <;> cases ph <;> try rfl
    show fetchFlush .buf p .data s = _
    unfold fetchFlush
    rw [State.memRead_page]
    rfl

theorem Seq.instr_of_busy {q : Seq} (h : q ≠ .idle) (c : Cfg) (fb : Memory) :
    ∃ i, q.instr c fb = some i := by
  cases q with
  | idle => exact absurd rfl h
  | init k => exact ⟨_, rfl⟩
  | flush src p ph => exact ⟨_, rfl⟩

/-- The transmit step, busy (R34). -/
theorem step_of_instr {i : Instr} (h : s.seq.instr s.cfg s.fb = some i) :
    step s = transmit (txOf s.params.cmdTable i) s := by
  unfold step
  rw [fetch_of_instr h]
  show exec i s = _
  rw [exec_of_instr h, transmitInPlace_of_row (Seq.row_of_instr h)]

/-- In `Idle` with nothing presented the step changes nothing (R251). -/
theorem step_idle_empty (h : s.seq = .idle) (hr : s.requests = []) : step s = .next s := by
  unfold step fetch fetchRequest; rw [h, hr]

/-- In `Idle` the step runs the request at the port (R33). -/
theorem step_idle_request {r : PortRequest} {later : List PortRequest} {i : Instr}
    (h : s.seq = .idle) (hr : s.requests = r :: later) (hd : decodeRequest r = .ok i) :
    step s = exec i (s.withRequests later) := by
  have hf : fetchRequest s = .run i (s.withRequests later) := by
    unfold fetchRequest; rw [hr]; simp only [hd]; rfl
  unfold step fetch; rw [h]; simp only [hf]

/-- In `Idle` a request that does not decode is refused (R82). -/
theorem step_idle_undecodable {r : PortRequest} {later : List PortRequest} {why : DecodeError}
    (h : s.seq = .idle) (hr : s.requests = r :: later) (hd : decodeRequest r = .error why) :
    step s = .refused (.undecodable why) := by
  unfold step fetch fetchRequest; rw [h, hr]; simp only [hd]

/-- The requests are the instructions carried by the request port. -/
theorem decodeRequest_carrier {r : PortRequest} {i : Instr} (h : decodeRequest r = .ok i) :
    i.carrier = .request ∧ i.wellFormed = true := by
  unfold decodeRequest at h
  repeat' split at h
  all_goals try cases h
  all_goals exact ⟨rfl, by first | rfl | assumption⟩

/-- All a step can do: wait, accept a request, or transmit. -/
theorem step_cases (h : step s = .next t) :
    (t = s ∧ ((s.seq = .idle ∧ s.requests = []) ∨ (s.seq ≠ .idle ∧ s.responses = []))) ∨
    (∃ r later i, s.seq = .idle ∧ s.requests = r :: later ∧ decodeRequest r = .ok i ∧
      i.carrier = .request ∧ i.wellFormed = true ∧ exec i (s.withRequests later) = .next t) ∨
    (∃ i req resp later, s.seq.instr s.cfg s.fb = some i ∧ s.seq.owner = some req ∧
      s.responses = resp :: later ∧
      t = (s.emit (txOf s.params.cmdTable i) resp later).settle req resp) := by
  by_cases hi : s.seq = .idle
  · cases hr : s.requests with
    | nil =>
      rw [step_idle_empty hi hr] at h
      cases h
      exact .inl ⟨rfl, .inl ⟨hi, rfl⟩⟩
    | cons r later =>
      cases hd : decodeRequest r with
      | error why => rw [step_idle_undecodable hi hr hd] at h; cases h
      | ok i =>
        rw [step_idle_request hi hr hd] at h
        obtain ⟨hc, hw⟩ := decodeRequest_carrier hd
        exact .inr (.inl ⟨r, later, i, hi, rfl, hd, hc, hw, h⟩)
  · obtain ⟨i, hinstr⟩ := Seq.instr_of_busy hi s.cfg s.fb
    rw [step_of_instr hinstr] at h
    rcases transmit_next h with ⟨_, hr, ht⟩ | ⟨req, resp, later, ho, hr, ht⟩
    · exact .inl ⟨ht, .inr ⟨hi, hr⟩⟩
    · exact .inr (.inr ⟨i, req, resp, later, hinstr, ho, hr, ht⟩)

end Sys2Proof.Machine
end

