-- ==== Sys2Proof/Laws/PerInstr.lean ====
section
/-! SUPPORT. Per instruction: what the decoder answers for the encoder's output. -/

namespace Sys2Proof.Laws

/-- The decoder undoes the encoder up to the operand bits the encoding drops (R74, R84). -/
def EncodingRoundTrip.Statement (i : Instr) : Prop :=
  i.wellFormed = true → decode (encode i) = .ok i.canonical

namespace EncodingRoundTrip

theorem displayOff : Statement .displayOff := fun _ => rfl

theorem setClockDiv (v : Byte) : Statement (.setClockDiv v) := fun _ => rfl

theorem setMuxRatio (v : Byte) : Statement (.setMuxRatio v) := fun _ => rfl

theorem setDisplayOffset (v : Byte) : Statement (.setDisplayOffset v) := fun _ => rfl

theorem setStartLine (l : Byte) : Statement (.setStartLine l) := fun _ => by
  revert l; decide +kernel

theorem setSegmentRemap (r : Remap) : Statement (.setSegmentRemap r) := fun _ => by
  cases r <;> rfl

theorem setComScan (r : Remap) : Statement (.setComScan r) := fun _ => by
  cases r <;> rfl

theorem setComPins (v : Byte) : Statement (.setComPins v) := fun _ => rfl

theorem setContrast (v : Byte) : Statement (.setContrast v) := fun _ => rfl

theorem setPrecharge (v : Byte) : Statement (.setPrecharge v) := fun _ => rfl

theorem setVcomh (v : Byte) : Statement (.setVcomh v) := fun _ => rfl

theorem entireDisplayResume : Statement .entireDisplayResume := fun _ => rfl

theorem setDisplayMode (m : DisplayMode) : Statement (.setDisplayMode m) := fun _ => by
  cases m <;> rfl

theorem setChargePump (m : ChargePump) : Statement (.setChargePump m) := fun _ => by
  cases m <;> rfl

theorem displayOn : Statement .displayOn := fun _ => rfl

theorem setPage (p : Fin 8) : Statement (.setPage p) := fun _ => by
  revert p; decide +kernel

theorem setColLow (c : Fin 128) : Statement (.setColLow c) := fun _ => by
  revert c; decide +kernel

theorem setColHigh (c : Fin 128) : Statement (.setColHigh c) := fun _ => by
  revert c; decide +kernel

theorem pageData (d : List Byte) : Statement (.pageData d) := fun h =>
  if_pos (beq_iff_eq.mp h)

theorem setPixel (x y : Int) (on : Bool) : Statement (.setPixel x y on) := fun _ => rfl

theorem replaceFromRaw (pages : List (List Byte)) : Statement (.replaceFromRaw pages) := fun h =>
  if_pos h

theorem setConfig (c : Cfg) : Statement (.setConfig c) := fun _ => rfl

theorem runInit : Statement .runInit := fun _ => rfl

theorem flush : Statement .flush := fun _ => rfl

theorem clearScreen : Statement .clearScreen := fun _ => rfl

end EncodingRoundTrip

end Sys2Proof.Laws
end

