-- ==== Sys2Proof/Laws/Pixel.lean ====
section
/-! SUPPORT. The translator and the pixels of the framebuffer. -/

namespace Sys2Proof.Machine

theorem PixelPlace.ext_iff' {w w' : PixelPlace} :
    w = w' ↔ w.page = w'.page ∧ w.column = w'.column ∧ w.bit = w'.bit := by
  cases w; cases w'; simp

/-- An in-range coordinate has the place R52 gives it. -/
theorem translatePixel_of_inRange {x y : Int} (h : InRange x y) :
    ∃ w, translatePixel x y = some w ∧ (w.page.val : Int) = y / 8 ∧ (w.column.val : Int) = x ∧
      (w.bit.val : Int) = y % 8 := by
  have hx := h.1
  have hy := h.2.2.1
  refine ⟨_, dif_pos h, ?_, ?_, ?_⟩ <;> simp <;> omega

/-- An out-of-range one has none (R52). -/
theorem translatePixel_of_not_inRange {x y : Int} (h : ¬ InRange x y) : translatePixel x y = none :=
  dif_neg h

/-- The bits of the new byte (R172, R173): the pixel's own by the operand and the policy, the others as they were. -/
theorem getLsbD_pixelByte (policy : PixelOffPolicy) (on : Bool) (b b' : Fin 8) (old : Byte) :
    (pixelByte policy on b old).getLsbD b'.val =
      if b' = b then (on || (decide (policy = .ignore) && old.getLsbD b'.val))
      else old.getLsbD b'.val := by
  have hor : ∀ (b b' : Fin 8) (old : Byte), (old ||| bitMask b).getLsbD b'.val =
      if b' = b then true else old.getLsbD b'.val := by decide +kernel
  have hand : ∀ (b b' : Fin 8) (old : Byte), (old &&& ~~~ bitMask b).getLsbD b'.val =
      if b' = b then false else old.getLsbD b'.val := by decide +kernel
  cases on
  · cases policy
    · exact hand b b' old
    · show old.getLsbD b'.val = _
      split <;> rfl
  · exact hor b b' old

/-- A pixel after one byte is written. -/
theorem State.pixel_fbWrite {s : State} (h : s.fb.wf = true) (w w' : PixelPlace) (v : Byte) :
    (s.fbWrite w.page w.column v).pixel w' =
      if w'.page = w.page ∧ w'.column = w.column then v.getLsbD w'.bit.val else s.pixel w' := by
  unfold State.pixel
  rw [State.fbRead_fbWrite h]
  split <;> rfl

/-- SET_PIXEL's write changes its own pixel alone (R174). -/
theorem State.pixel_setPixel {s : State} (h : s.fb.wf = true) (policy : PixelOffPolicy) (on : Bool)
    (w w' : PixelPlace) :
    (s.fbWrite w.page w.column (pixelByte policy on w.bit (s.fbRead w.page w.column))).pixel w' =
      if w' = w then (on || (decide (policy = .ignore) && s.pixel w)) else s.pixel w' := by
  rw [State.pixel_fbWrite h]
  by_cases hp : w'.page = w.page ∧ w'.column = w.column
  · rw [if_pos hp, getLsbD_pixelByte]
    by_cases hb : w'.bit = w.bit
    · have : w' = w := PixelPlace.ext_iff'.mpr ⟨hp.1, hp.2, hb⟩
      rw [if_pos hb, if_pos this, this]
      rfl
    · have : w' ≠ w := fun e => hb (by rw [e])
      rw [if_neg hb, if_neg this]
      unfold State.pixel
      rw [hp.1, hp.2]
  · have : w' ≠ w := fun e => hp (by rw [e]; exact ⟨rfl, rfl⟩)
    rw [if_neg hp, if_neg this]

end Sys2Proof.Machine
end

