-- ==== Sys2Proof/Laws/Run.lean ====
section
/-! SUPPORT. Runs of several steps, and the transmit step in the terms of the statements. -/

namespace Sys2Proof.Machine

variable {s t : State}

theorem runSteps_zero (s : State) : runSteps 0 s = .next s := rfl

/-- One step of a run that goes on. -/
theorem runSteps_of_next (h : step s = .next t) (n : Nat) :
    runSteps (n + 1) s = runSteps n t := by
  rw [runSteps, h]

/-- A run cut after `m` steps. -/
theorem runSteps_add {m : Nat} (h : runSteps m s = .next t) (n : Nat) :
    runSteps (m + n) s = runSteps n t := by
  induction m generalizing s with
  | zero => rw [runSteps_zero] at h; cases h; rw [Nat.zero_add]
  | succ m ih =>
    cases hs : step s with
    | next u =>
      rw [runSteps_of_next hs] at h
      rw [Nat.succ_add, runSteps_of_next hs, ih h]
    | fault f => rw [runSteps, hs] at h; cases h
    | refused r => rw [runSteps, hs] at h; cases h

/-- `Finish` does not depend on what was just sent. -/
theorem finish_emit (s : State) (tx : Tx) (resp : Response) (later : List Response) :
    (s.emit tx resp later).finish = s.finish.emit tx resp later := by
  unfold State.finish
  simp only [State.emit_seq, State.emit_params]
  split
  · by_cases hc : s.params.clearAfterFlush <;> simp only [hc, if_true] <;> rfl
  all_goals rfl

/-- A transmission answered `Ok` before the last position (R34). -/
theorem settle_emit_ok {req : Instr} (h : s.seq.isLast = false) (tx : Tx)
    (later : List Response) :
    (s.emit tx .ok later).settle req .ok = s.afterOk tx later s.seq.next :=
  settle_ok_not_last (s := s.emit tx .ok later) h

/-- A transmission answered `Ok` at the last position (R34, R196). -/
theorem settle_emit_last {req : Instr} (h : s.seq.isLast = true) (tx : Tx)
    (later : List Response) :
    (s.emit tx .ok later).settle req .ok = (s.finish.emit tx .ok later).finishWith req .ok := by
  rw [settle_ok_last (s := s.emit tx .ok later) h, finish_emit]

/-- A transmission answered `Err(e)` (R34, R224). -/
theorem settle_emit_err {req : Instr} (e : TransportError) (tx : Tx) (later : List Response) :
    (s.emit tx (.err e) later).settle req (.err e) = s.afterErr tx e later req := by
  simp [State.emit, State.finishWith, State.afterErr]

/-- A step at a position before the last, answered `Ok`. -/
theorem step_ok {i : Instr} {later : List Response} (hi : s.seq.instr s.cfg s.fb = some i)
    (hr : s.responses = .ok :: later) (hl : s.seq.isLast = false) :
    step s = .next (s.afterOk (txOf s.params.cmdTable i) later s.seq.next) := by
  have hb : s.seq ≠ .idle := fun e => by rw [e] at hi; cases hi
  obtain ⟨req, ho⟩ := Seq.owner_of_busy hb
  rw [step_of_instr hi, transmit_of_response ho hr, settle_emit_ok hl]

/-- A step at the last position, answered `Ok`. -/
theorem step_last {i req : Instr} {later : List Response}
    (hi : s.seq.instr s.cfg s.fb = some i) (ho : s.seq.owner = some req)
    (hr : s.responses = .ok :: later) (hl : s.seq.isLast = true) :
    step s = .next ((s.finish.emit (txOf s.params.cmdTable i) .ok later).finishWith req .ok) := by
  rw [step_of_instr hi, transmit_of_response ho hr, settle_emit_last hl]

/-- A step answered `Err(e)`. -/
theorem step_err {i req : Instr} {later : List Response} {e : TransportError}
    (hi : s.seq.instr s.cfg s.fb = some i) (ho : s.seq.owner = some req)
    (hr : s.responses = .err e :: later) :
    step s = .next (s.afterErr (txOf s.params.cmdTable i) e later req) := by
  rw [step_of_instr hi, transmit_of_response ho hr, settle_emit_err]

end Sys2Proof.Machine
end

