-- ==== Sys2Proof/Laws/Sequence.lean ====
section
/-! SUPPORT. The sequences and the record: what stands at a position, what the request in progress has sent, and all an
accepted request can do. -/

namespace Sys2Proof.Machine

variable {s t : State}

/-! ### The record -/

@[simp] theorem openTransmissions_nil : openTransmissions [] = [] := rfl

@[simp] theorem openTransmissions_append_tx (r : List Event) (tx : Tx) (resp : Response) :
    openTransmissions (r ++ [.tx tx resp]) = openTransmissions r ++ [(tx, resp)] := by
  simp [openTransmissions]

@[simp] theorem openTransmissions_append_result (r : List Event) (i : Instr) (res : Result) :
    openTransmissions (r ++ [.result i res]) = [] := by
  simp [openTransmissions]

/-! ### Positions -/

/-- The sequence has at a position's number the position's instruction (R142, R191). -/
theorem Seq.getElem?_program {q : Seq} {c : Cfg} {fb : Memory} {i : Instr}
    (h : q.instr c fb = some i) : (q.program c fb)[q.number]? = some i := by
  cases q with
  | idle => cases h
  | init k =>
    simp only [Seq.instr, Option.some.injEq] at h
    subst h
    fin_cases k <;> rfl
  | flush src p ph =>
    simp only [Seq.instr, Option.some.injEq] at h
    subst h
    fin_cases p <;> cases ph <;> rfl

/-- The next position is of the same sequence (R145, R193). -/
theorem Seq.program_next {q : Seq} {c : Cfg} {fb : Memory} (h : q.isLast = false) :
    q.next.program c fb = q.program c fb := by
  cases q with
  | idle => rfl
  | init k =>
    fin_cases k <;> first | rfl | cases h
  | flush src p ph =>
    cases ph with
    | pageSel => rfl
    | colLow => rfl
    | colHigh => rfl
    | data => fin_cases p <;> first | rfl | cases h

/-- What a position transmits has a legal shape (R31). -/
theorem Seq.legal_txOf (tbl : CmdTable) {q : Seq} {c : Cfg} {fb : Memory} {i : Instr}
    (h : q.instr c fb = some i) : (txOf tbl i).legal := by
  cases q with
  | idle => cases h
  | init k =>
    simp only [Seq.instr, Option.some.injEq] at h
    subst h
    fin_cases k <;>
      simp [initCmd, initProgram, txOf, Instr.carrier, Instr.row, Row.carrier, Tx.legal, commandBytes]
  | flush src p ph =>
    simp only [Seq.instr, Option.some.injEq] at h
    subst h
    cases ph <;>
      simp [flushInstr, txOf, Instr.carrier, Instr.row, Row.carrier, Tx.legal, commandBytes]

/-- The request in progress can yield `Ok` and TransportFailure (R221). -/
theorem Seq.resultLegal_of_owner {q : Seq} {req : Instr} (h : q.owner = some req) {r : Result}
    (hr : r = .ok ∨ ∃ e, r = .transportFailure e) : resultLegal req r := by
  rcases Seq.owner_cases h with rfl | rfl | rfl <;> exact hr

/-! ### Accepted requests -/

/-- All a well-formed request can do (R33): it is accepted in `Idle` and has its effect. -/
theorem exec_request_cases {i : Instr} (hc : i.carrier = .request) (hw : i.wellFormed = true)
    (h : exec i s = .next t) :
    s.seq = .idle ∧
    ((∃ x y on, i = .setPixel x y on ∧ t = setPixelEffect x y on s) ∨
      (∃ pages, i = .replaceFromRaw pages ∧ gridShape pages = true ∧
        t = { s with fb := s.fb.writeBytes 0 (flatGrid pages) }.finishWith i .ok) ∨
      (∃ c, i = .setConfig c ∧ t = { s with cfg := c }.finishWith i .ok) ∨
      (i = .runInit ∧ t = { s with seq := initStart }) ∨
      (i = .flush ∧ t = { s with seq := flushStart .buf }) ∨
      (i = .clearScreen ∧ t = { s with seq := flushStart .zero })) := by
  cases i with
  | setPixel x y on =>
    obtain ⟨hi, he⟩ := acceptWhenIdle_next h
    cases he
    exact ⟨hi, .inl ⟨x, y, on, rfl, rfl⟩⟩
  | replaceFromRaw pages =>
    obtain ⟨hi, he⟩ := acceptWhenIdle_next h
    rw [replaceEffect_of_shape hw] at he
    cases he
    exact ⟨hi, .inr (.inl ⟨pages, rfl, hw, rfl⟩)⟩
  | setConfig c =>
    obtain ⟨hi, he⟩ := acceptWhenIdle_next h
    cases he
    exact ⟨hi, .inr (.inr (.inl ⟨c, rfl, rfl⟩))⟩
  | runInit =>
    obtain ⟨hi, he⟩ := acceptWhenIdle_next h
    cases he
    exact ⟨hi, .inr (.inr (.inr (.inl ⟨rfl, rfl⟩)))⟩
  | flush =>
    obtain ⟨hi, he⟩ := acceptWhenIdle_next h
    cases he
    exact ⟨hi, .inr (.inr (.inr (.inr (.inl ⟨rfl, rfl⟩))))⟩
  | clearScreen =>
    obtain ⟨hi, he⟩ := acceptWhenIdle_next h
    cases he
    exact ⟨hi, .inr (.inr (.inr (.inr (.inr ⟨rfl, rfl⟩))))⟩
  | _ => cases hc

/-- SET_PIXEL's effect is one of two: the byte rewritten, or the violation reported (R170). -/
theorem setPixelEffect_cases (x y : Int) (on : Bool) (s : State) :
    (InRange x y ∧ ∃ w, translatePixel x y = some w ∧
      setPixelEffect x y on s =
        (s.fbWrite w.page w.column
          (pixelByte s.params.pixelOff on w.bit (s.fbRead w.page w.column))).finishWith
            (.setPixel x y on) .ok) ∨
    (¬ InRange x y ∧
      setPixelEffect x y on s = s.finishWith (.setPixel x y on) (.boundaryViolation x y)) := by
  by_cases h : InRange x y
  · obtain ⟨w, hw, _⟩ := translatePixel_of_inRange h
    exact .inl ⟨h, w, hw, by rw [setPixelEffect, hw]⟩
  · exact .inr ⟨h, by rw [setPixelEffect, translatePixel_of_not_inRange h]; rfl⟩

/-- What an accepted request leaves alone: the ports and the parameters; and it transmits nothing (R33). -/
theorem exec_request_frame {i : Instr} (hc : i.carrier = .request) (hw : i.wellFormed = true)
    (h : exec i s = .next t) :
    t.requests = s.requests ∧ t.responses = s.responses ∧ t.params = s.params ∧
    (t.record = s.record ∨ ∃ res, t.record = s.record ++ [.result i res]) := by
  rcases (exec_request_cases hc hw h).2 with
    ⟨x, y, on, rfl, rfl⟩ | ⟨pages, rfl, _, rfl⟩ | ⟨c, rfl, rfl⟩ | ⟨rfl, rfl⟩ | ⟨rfl, rfl⟩ | ⟨rfl, rfl⟩
  · rcases setPixelEffect_cases x y on s with ⟨_, w, _, e⟩ | ⟨_, e⟩ <;> rw [e]
    · exact ⟨rfl, rfl, rfl, .inr ⟨.ok, rfl⟩⟩
    · exact ⟨rfl, rfl, rfl, .inr ⟨.boundaryViolation x y, rfl⟩⟩
  · exact ⟨rfl, rfl, rfl, .inr ⟨.ok, rfl⟩⟩
  · exact ⟨rfl, rfl, rfl, .inr ⟨.ok, rfl⟩⟩
  · exact ⟨rfl, rfl, rfl, .inl rfl⟩
  · exact ⟨rfl, rfl, rfl, .inl rfl⟩
  · exact ⟨rfl, rfl, rfl, .inl rfl⟩

end Sys2Proof.Machine
end

