-- ==== Sys2Proof/Tests/Slice0.lean ====
section
/-! SUPPORT. Tests: expected values are the spec's own vectors (95_test_vectors.md) and words written out from its
encodings; and a witness for the hypotheses of every statement that has some. -/

namespace Sys2Proof.Tests

open Sys2Proof.Machine

/-! ### WellFormed -/

theorem test_page_data_of_127_bytes_is_ill_formed :
    (Instr.pageData (List.replicate 127 0)).wellFormed = false := by decide +kernel

theorem test_grid_of_7_pages_is_ill_formed :
    (Instr.replaceFromRaw (List.replicate 7 (List.replicate 128 0))).wellFormed = false := by
  decide +kernel

theorem test_grid_with_a_short_page_is_ill_formed :
    (Instr.replaceFromRaw (List.replicate 7 (List.replicate 128 0) ++
      [List.replicate 127 0])).wellFormed = false := by
  decide +kernel

/-! ### Decoding, words written out from R84 and R80 -/

theorem test_decode_display_off : decode (.command [0b10101110#8]) = .ok .displayOff := rfl
theorem test_decode_set_clock_div :
    decode (.command [0b11010101#8, 0xF1]) = .ok (.setClockDiv 0xF1) := rfl
theorem test_decode_set_mux_ratio :
    decode (.command [0b10101000#8, 0x1F]) = .ok (.setMuxRatio 0x1F) := rfl
theorem test_decode_set_display_offset :
    decode (.command [0b11010011#8, 0x40]) = .ok (.setDisplayOffset 0x40) := rfl
theorem test_decode_set_start_line : decode (.command [0b01100000#8]) = .ok (.setStartLine 32) := rfl
theorem test_decode_set_segment_remap :
    decode (.command [0b10100001#8]) = .ok (.setSegmentRemap .remapped) := rfl
theorem test_decode_set_com_scan :
    decode (.command [0b11001000#8]) = .ok (.setComScan .remapped) := rfl
theorem test_decode_set_com_pins :
    decode (.command [0b11011010#8, 0x32]) = .ok (.setComPins 0x32) := rfl
theorem test_decode_set_contrast :
    decode (.command [0b10000001#8, 0xFF]) = .ok (.setContrast 0xFF) := rfl
theorem test_decode_set_precharge :
    decode (.command [0b11011001#8, 0xF1]) = .ok (.setPrecharge 0xF1) := rfl
theorem test_decode_set_vcomh :
    decode (.command [0b11011011#8, 0x30]) = .ok (.setVcomh 0x30) := rfl
theorem test_decode_entire_display_resume :
    decode (.command [0b10100100#8]) = .ok .entireDisplayResume := rfl
theorem test_decode_set_display_mode :
    decode (.command [0b10100111#8]) = .ok (.setDisplayMode .inverse) := rfl
theorem test_decode_set_charge_pump :
    decode (.command [0b10001101#8, 0b00010100#8]) = .ok (.setChargePump .v7_5) := rfl
theorem test_decode_display_on : decode (.command [0b10101111#8]) = .ok .displayOn := rfl
theorem test_decode_set_page : decode (.command [0b10110111#8]) = .ok (.setPage 7) := rfl
theorem test_decode_set_col_low : decode (.command [0b00001010#8]) = .ok (.setColLow 10) := rfl
theorem test_decode_set_col_high : decode (.command [0b00010111#8]) = .ok (.setColHigh 112) := rfl
theorem test_decode_page_data :
    decode (.data (0x01 :: List.replicate 127 0)) = .ok (.pageData (0x01 :: List.replicate 127 0)) := by
  decide +kernel
theorem test_decode_set_pixel :
    decode (.request ⟨0b000#3, .pixel (-1) 0 true⟩) = .ok (.setPixel (-1) 0 true) := rfl
theorem test_decode_replace_from_raw :
    decode (.request ⟨0b001#3, .grid (List.replicate 8 (List.replicate 128 0xA5))⟩) =
      .ok (.replaceFromRaw (List.replicate 8 (List.replicate 128 0xA5))) := by
  decide +kernel
theorem test_decode_set_config :
    decode (.request ⟨0b010#3, .config standardConfig⟩) = .ok (.setConfig standardConfig) := rfl
theorem test_decode_initialize : decode (.request ⟨0b011#3, .none⟩) = .ok .runInit := rfl
theorem test_decode_flush : decode (.request ⟨0b100#3, .none⟩) = .ok .flush := rfl
theorem test_decode_clear_screen : decode (.request ⟨0b101#3, .none⟩) = .ok .clearScreen := rfl

/-- R74: `0x18` is the high nibble of no column. -/
theorem test_decode_refuses_column_high_8 :
    decode (.command [0x18]) = .error (.columnOutOfRange 0x18) := rfl
/-- R75: `0x00` is no charge-pump byte. -/
theorem test_decode_refuses_charge_pump_0 :
    decode (.command [0x8D, 0x00]) = .error (.notAChargePump 0x00) := rfl
/-- R86, G11: the memory addressing mode command is not emitted by the block. -/
theorem test_decode_refuses_addressing_mode :
    decode (.command [0x20, 0x00]) = .error (.noRow 0x20) := rfl
/-- R82. -/
theorem test_decode_refuses_label_6 :
    decode (.request ⟨6, .none⟩) = .error (.unknownLabel 6) := rfl
/-- No byte matches two rows of the opcode map (R86). -/
theorem test_opcode_rows_disjoint :
    opRows.Pairwise fun r r' => ∀ b : Byte, ¬ (r.accepts b = true ∧ r'.accepts b = true) := by
  decide +kernel

/-! ### Meanings, one step each -/

/-- A small state: the reset state at a position, the transport's next answers given. -/
def stateAt (q : Seq) (rs : List Response) : State :=
  { State.reset with seq := q, responses := rs }

/-- An idle block with a request presented. -/
def presented (r : PortRequest) : State := { State.reset with requests := [r] }

/-- One framebuffer byte set. -/
def withByte (p : Fin 8) (c : Fin 128) (v : Byte) (s : State) : State := s.fbWrite p c v

/-- What the next state of a step is asked. -/
def after (s : State) (ask : State → Bool) : Bool :=
  match step s with
  | .next t => ask t
  | .fault _ => false
  | .refused _ => false

/-- The step emits this transmission, answered `Ok`, and goes to this position. -/
def sends (s : State) (tx : Tx) (q : Seq) : Bool :=
  after s fun t => decide (t.transcript = [(tx, .ok)]) && decide (t.seq = q)

theorem test_step_display_off : sends (stateAt (.init 0) [.ok]) ⟨.cmd, [0xAE]⟩ (.init 1) = true := by
  decide
theorem test_step_set_clock_div :
    sends (stateAt (.init 1) [.ok]) ⟨.cmd, [0xD5, 0x80]⟩ (.init 2) = true := by decide
theorem test_step_set_mux_ratio :
    sends (stateAt (.init 2) [.ok]) ⟨.cmd, [0xA8, 0x3F]⟩ (.init 3) = true := by decide
theorem test_step_set_display_offset :
    sends (stateAt (.init 3) [.ok]) ⟨.cmd, [0xD3, 0x00]⟩ (.init 4) = true := by decide
theorem test_step_set_start_line :
    sends (stateAt (.init 4) [.ok]) ⟨.cmd, [0x40]⟩ (.init 5) = true := by decide
theorem test_step_set_segment_remap :
    sends (stateAt (.init 5) [.ok]) ⟨.cmd, [0xA0]⟩ (.init 6) = true := by decide
theorem test_step_set_com_scan :
    sends (stateAt (.init 6) [.ok]) ⟨.cmd, [0xC0]⟩ (.init 7) = true := by decide
theorem test_step_set_com_pins :
    sends (stateAt (.init 7) [.ok]) ⟨.cmd, [0xDA, 0x12]⟩ (.init 8) = true := by decide
theorem test_step_set_contrast :
    sends (stateAt (.init 8) [.ok]) ⟨.cmd, [0x81, 0x7F]⟩ (.init 9) = true := by decide
theorem test_step_set_precharge :
    sends (stateAt (.init 9) [.ok]) ⟨.cmd, [0xD9, 0x22]⟩ (.init 10) = true := by decide
theorem test_step_set_vcomh :
    sends (stateAt (.init 10) [.ok]) ⟨.cmd, [0xDB, 0x20]⟩ (.init 11) = true := by decide
theorem test_step_entire_display_resume :
    sends (stateAt (.init 11) [.ok]) ⟨.cmd, [0xA4]⟩ (.init 12) = true := by decide
theorem test_step_set_display_mode :
    sends (stateAt (.init 12) [.ok]) ⟨.cmd, [0xA6]⟩ (.init 13) = true := by decide
theorem test_step_set_charge_pump :
    sends (stateAt (.init 13) [.ok]) ⟨.cmd, [0x8D, 0x10]⟩ (.init 14) = true := by decide
theorem test_step_display_on :
    sends (stateAt (.init 14) [.ok]) ⟨.cmd, [0xAF]⟩ .idle = true := by decide
theorem test_step_display_on_result :
    after (stateAt (.init 14) [.ok]) (fun t => decide (t.results = [(.runInit, .ok)])) = true := by
  decide

/-- Vector S4's end: line 14 answered `Err(e)`. -/
theorem test_step_charge_pump_failure :
    after (stateAt (.init 13) [.err someTransportError])
      (fun t => decide (t.seq = .idle) &&
        decide (t.results = [(.runInit, .transportFailure someTransportError)])) = true := by decide

theorem test_step_set_page :
    sends (stateAt (.flush .buf 3 .pageSel) [.ok]) ⟨.cmd, [0xB3]⟩ (.flush .buf 3 .colLow) = true := by
  decide
theorem test_step_set_col_low :
    sends (stateAt (.flush .zero 3 .colLow) [.ok]) ⟨.cmd, [0x00]⟩ (.flush .zero 3 .colHigh) = true := by
  decide
theorem test_step_set_col_high :
    sends (stateAt (.flush .buf 3 .colHigh) [.ok]) ⟨.cmd, [0x10]⟩ (.flush .buf 3 .data) = true := by
  decide

/-- Vector L1, line 8: `D p1 c5=04`. -/
theorem test_step_page_data :
    sends (withByte 1 5 0x04 (stateAt (.flush .buf 1 .data) [.ok]))
      ⟨.data, List.replicate 5 0 ++ 0x04 :: List.replicate 122 0⟩ (.flush .buf 2 .pageSel) = true := by
  decide +kernel

/-- Vector L5's last line: the buffer is cleared under CLEAR_AFTER_FLUSH. -/
theorem test_step_last_page_clears :
    after { withByte 4 64 0x01 (stateAt (.flush .buf 7 .data) [.ok]) with
        params := { standardParams with clearAfterFlush := true } }
      (fun t => decide (t.fbRead 4 64 = 0) && decide (t.results = [(.flush, .ok)])) = true := by
  decide +kernel

/-- Vector F5. -/
theorem test_step_set_pixel :
    after (presented ⟨0, .pixel 5 10 true⟩)
      (fun t => decide (t.fbRead 1 5 = 0x04) && decide (t.results = [(.setPixel 5 10 true, .ok)])) =
        true := by decide
/-- Vector F14. -/
theorem test_step_set_pixel_off :
    after (withByte 3 3 0xFF (presented ⟨0, .pixel 3 26 false⟩))
      (fun t => decide (t.fbRead 3 3 = 0xFB)) = true := by decide
/-- Vector F12. -/
theorem test_step_set_pixel_out_of_range :
    after (presented ⟨0, .pixel (-1) 0 true⟩)
      (fun t => decide (t.results = [(.setPixel (-1) 0 true, .boundaryViolation (-1) 0)])) = true := by
  decide
/-- Vector F16's clearing grid, from F4's buffer. -/
theorem test_step_replace_from_raw :
    after (withByte 7 127 0x80 (presented ⟨1, .grid (List.replicate 8 (List.replicate 128 0))⟩))
      (fun t => decide (t.fb = [])) = true := by
  decide +kernel
/-- R175's example: `P[2][10] = 0xFF`, all other bytes 0. -/
theorem test_step_replace_from_raw_one_byte :
    after (presented ⟨1, .grid (List.replicate 2 (List.replicate 128 0) ++
        (List.replicate 10 0 ++ 0xFF :: List.replicate 117 0) ::
          List.replicate 5 (List.replicate 128 0))⟩)
      (fun t => decide (t.fbRead 2 10 = 0xFF) && decide (t.fbRead 2 11 = 0)) = true := by
  decide +kernel
theorem test_step_set_config :
    after (presented ⟨2, .config (presetConfig standardConfig 0xCF 0x30)⟩)
      (fun t => decide (t.cfg = presetConfig standardConfig 0xCF 0x30) &&
        decide (t.transcript = [])) = true := by decide
theorem test_step_initialize :
    after (presented ⟨3, .none⟩) (fun t => decide (t.seq = .init 0) && decide (t.record = [])) =
      true := by decide
theorem test_step_flush :
    after (presented ⟨4, .none⟩) (fun t => decide (t.seq = .flush .buf 0 .pageSel)) = true := by decide
theorem test_step_clear_screen :
    after (presented ⟨5, .none⟩) (fun t => decide (t.seq = .flush .zero 0 .pageSel)) = true := by
  decide
/-- R220's numeric labels. -/
theorem test_result_codes :
    [Result.ok.code, (Result.transportFailure someTransportError).code, (Result.boundaryViolation 128 0).code] =
      [0, 1, 2] := rfl

/-! ### Words placed where the step finds them -/

theorem test_table_word_command : decodeTableWord 16 0x80D5 = some (.setClockDiv 0x80) := by decide
theorem test_table_word_request : decodeTableWord 8 4 = some .flush := by decide
theorem test_fetch_word_runs_command :
    sends (State.reset.withFetchWord 16 0x1FA8) ⟨.cmd, [0xA8, 0x1F]⟩ (.init 3) = true := by decide
theorem test_fetch_word_runs_page :
    sends (State.reset.withFetchWord 1024 0xFF)
      ⟨.data, 0xFF :: List.replicate 127 0⟩ (.flush .buf 1 .pageSel) = true := by
  decide +kernel

/-! ### Witnesses: states that meet the hypotheses of the statements -/

/-- A zero grid. -/
def zeroGrid : List (List Byte) := List.replicate 8 (List.replicate 128 0)

theorem zeroGrid_shape : gridShape zeroGrid = true := by decide +kernel

theorem witness_EncodedLengthIsFixedPerCommand : (Instr.setContrast 0xFF).carrier = .command := rfl

theorem witness_EmittedCommandMatchesOneRow :
    ∃ (s t : State) (es : List Event) (bytes : List Byte) (resp : Response),
      s.params.cmdTable = standardTable ∧ step s = .next t ∧ t.record = s.record ++ es ∧
        Event.tx ⟨.cmd, bytes⟩ resp ∈ es :=
  ⟨stateAt (.init 1) [.ok], _, [.tx ⟨.cmd, [0xD5, 0x80]⟩ .ok], _, _, rfl, rfl, rfl, by simp; exact ⟨rfl, rfl⟩⟩

theorem witness_ColumnPairDeterminesColumn :
    commandBytes standardTable (.setColLow 127) = [0x0F] ∧
      commandBytes standardTable (.setColHigh 127) = [0x17] := by decide

theorem witness_DecodeUndoesEncode :
    (Instr.setStartLine 0xFF).wellFormed = true ∧ (Instr.setColHigh 127).wellFormed = true ∧
      (Instr.replaceFromRaw zeroGrid).wellFormed = true :=
  ⟨rfl, rfl, zeroGrid_shape⟩

/-- The clause on the dropped bits, at the largest operands it covers. -/
theorem witness_DecodeUndoesEncode_exact :
    (Instr.setStartLine 63).canonical = .setStartLine 63 ∧
      (Instr.setColLow 15).canonical = .setColLow 15 ∧
      (Instr.setColHigh 112).canonical = .setColHigh 112 := by decide

theorem witness_EncodeUndoesDecode : decode (.command [0x8D, 0x95]) = .ok (.setChargePump .v9_0) := rfl

/-- The corners of the range and the nearest coordinates outside it (R170). -/
theorem witness_TranslatorGivesPageColumnBit :
    InRange 0 0 ∧ InRange 127 63 ∧ ¬ InRange 128 0 ∧ ¬ InRange 0 64 ∧ ¬ InRange (-1) 0 ∧
      ¬ InRange 0 (-1) := by decide

theorem witness_TranslatorIsABijection :
    translatePixel 127 63 = some ⟨7, 127, 7⟩ ∧ translatePixel 0 8 = some ⟨1, 0, 0⟩ := by decide

theorem witness_MemWriteThenMemRead :
    State.reset.fb.wf = true ∧ 1020 + ([1, 2, 3, 4] : List Byte).length ≤ 1024 ∧
      1024 < 1021 + ([1, 2, 3, 4] : List Byte).length := by decide

theorem witness_HostRestoresTheResetState :
    ∃ (s : State) (pages : List (List Byte)) (q : List PortRequest),
      s.seq = .idle ∧ s.fb.wf = true ∧ gridShape pages = true ∧
        (∀ page ∈ pages, ∀ b ∈ page, b = 0) ∧
        s.requests = ⟨1, .grid pages⟩ :: ⟨2, .config s.params.defaultConfig⟩ :: q := by
  refine ⟨{ withByte 3 3 0xFF State.reset with
    requests := [⟨1, .grid zeroGrid⟩, ⟨2, .config standardConfig⟩] }, zeroGrid, [], rfl, by decide,
    zeroGrid_shape, ?_, rfl⟩
  intro page hp b hb
  rw [List.eq_of_mem_replicate hp] at hb
  exact List.eq_of_mem_replicate hb

theorem witness_StepRunsTheFetchedInstruction :
    decode (.request ⟨4, .none⟩) = .ok .flush ∧ (presented ⟨4, .none⟩).seq = .idle ∧
      (presented ⟨4, .none⟩).requests = [⟨4, .none⟩] ∧
      (stateAt (.init 14) []).seq = .init 14 ∧
      (stateAt (.flush .zero 7 .data) []).seq = .flush .zero 7 .data :=
  ⟨rfl, rfl, rfl, rfl, rfl⟩

theorem witness_WaitingChangesNothing :
    State.reset.seq = .idle ∧ State.reset.requests = [] ∧
      (stateAt (.init 0) []).seq ≠ .idle ∧ (stateAt (.init 0) []).responses = [] := by decide

/-- Both ends of a sequence and both responses. -/
theorem witness_TransmitStepFollowsItsRule :
    (stateAt (.init 0) [.ok]).seq.instr standardConfig [] = some .displayOff ∧
      (stateAt (.init 0) [.ok]).seq.owner = some .runInit ∧
      (stateAt (.init 0) [.ok]).seq.isLast = false ∧
      (stateAt (.flush .buf 7 .data) [.err someTransportError]).seq.owner = some .flush ∧
      (stateAt (.flush .buf 7 .data) [.err someTransportError]).seq.isLast = true ∧
      (stateAt (.flush .buf 7 .data) [.err someTransportError]).responses = [.err someTransportError] := by decide

theorem witness_BusyBlockLeavesRequestsWaiting : (stateAt (.flush .buf 2 .data) [.ok]).seq ≠ .idle := by
  decide

theorem witness_OnlyUnknownRequestsAreRefused :
    (presented ⟨6, .none⟩).seq = .idle ∧ (presented ⟨6, .none⟩).requests = [⟨6, .none⟩] ∧
      (presented ⟨7, .pixel 0 0 true⟩).requests = [⟨7, .pixel 0 0 true⟩] := by decide

/-- For the statements of the initialization commands: the default table, a response, every step. -/
theorem witness_init_commands (k : Fin 15) :
    (stateAt (.init k) [.ok]).params.cmdTable = standardTable ∧
      (stateAt (.init k) [.ok]).responses = .ok :: [] ∧ (stateAt (.init k) [.ok]).seq = .init k :=
  ⟨rfl, rfl, rfl⟩

theorem witness_OneByteInitCommandsTransmit : (stateAt (.init 12) [.ok]).seq = .init 12 ∧
    (stateAt (.init 12) [.ok]).params.cmdTable = standardTable ∧
    (stateAt (.init 12) [.ok]).responses = [.ok] := ⟨rfl, rfl, rfl⟩

theorem witness_RawOperandInitCommandsTransmit : (stateAt (.init 10) [.ok]).seq = .init 10 ∧
    (stateAt (.init 10) [.ok]).params.cmdTable = standardTable ∧
    (stateAt (.init 10) [.ok]).responses = [.ok] := ⟨rfl, rfl, rfl⟩

theorem witness_ChargePumpCommandTransmits : (stateAt (.init 13) [.ok]).seq = .init 13 ∧
    (stateAt (.init 13) [.ok]).params.cmdTable = standardTable ∧
    (stateAt (.init 13) [.ok]).responses = [.ok] := ⟨rfl, rfl, rfl⟩

theorem witness_DisplayOnCompletesInitialize : (stateAt (.init 14) [.ok]).seq = .init 14 ∧
    (stateAt (.init 14) [.ok]).params.cmdTable = standardTable ∧
    (stateAt (.init 14) [.ok]).responses = [.ok] := ⟨rfl, rfl, rfl⟩

/-- Each of the three positions, at the first and at the last page of either source. -/
theorem witness_CursorCommandsTransmit (ph : PagePhase) :
    (stateAt (.flush .buf 0 ph) [.ok]).seq = .flush .buf 0 ph ∧
      (stateAt (.flush .buf 0 ph) [.ok]).responses = [.ok] ∧
      (stateAt (.flush .zero 7 ph) [.ok]).seq = .flush .zero 7 ph ∧
      (stateAt (.flush .zero 7 ph) [.ok]).responses = [.ok] := ⟨rfl, rfl, rfl, rfl⟩

/-- The operands at the ends of their ranges, with the bytes of R116, R117 and R118. -/
theorem witness_CursorCommandsTransmit_operands :
    commandBytes standardTable (.setPage 0) = [0xB0] ∧
      commandBytes standardTable (.setPage 7) = [0xB7] ∧
      commandBytes standardTable (.setColLow 0) = [0x00] ∧
      commandBytes standardTable (.setColLow 127) = [0x0F] ∧
      commandBytes standardTable (.setColHigh 0) = [0x10] ∧
      commandBytes standardTable (.setColHigh 127) = [0x17] := by decide

theorem witness_PageDataTransmits :
    (List.replicate 128 (0 : Byte)).length = 128 ∧ (6 : Fin 8).val + 1 < 8 ∧
      (stateAt (.flush .buf 6 .data) [.ok]).seq = .flush .buf 6 .data ∧
      (stateAt (.flush .buf 6 .data) [.ok]).responses = [.ok] := by decide +kernel

/-- Both sources, and both values of CLEAR_AFTER_FLUSH. -/
theorem witness_LastPageFinishesTheFlush :
    (List.replicate 128 (0 : Byte)).length = 128 ∧
      (stateAt (.flush .buf 7 .data) [.ok]).seq = .flush .buf 7 .data ∧
      (stateAt (.flush .zero 7 .data) [.ok]).seq = .flush .zero 7 .data ∧
      (stateAt (.flush .zero 7 .data) [.ok]).responses = [.ok] ∧
      (stateAt (.flush .buf 7 .data) [.ok]).params.clearAfterFlush = false ∧
      (State.resetWith { standardParams with clearAfterFlush := true }).params.clearAfterFlush = true := by
  decide +kernel

theorem witness_FailedTransmissionEndsTheRequest :
    (Instr.setPage 5).wellFormed = true ∧
      (stateAt (.flush .buf 5 .pageSel) [.err someTransportError]).seq.row standardConfig = some (Instr.setPage 5).row ∧
      (stateAt (.flush .buf 5 .pageSel) [.err someTransportError]).seq.owner = some .flush ∧
      (stateAt (.flush .buf 5 .pageSel) [.err someTransportError]).responses = [.err someTransportError] := by decide

theorem witness_idle : State.reset.seq = .idle ∧ State.reset.fb.wf = true ∧ InRange 127 63 := by decide

theorem witness_SetConfigReplacesTheConfiguration : State.reset.seq = .idle := rfl

theorem witness_SequenceRequestsStart : State.reset.seq = .idle := rfl

theorem witness_SetPixelOnSetsTheBit :
    State.reset.fb.wf = true ∧ State.reset.seq = .idle ∧ InRange 127 63 ∧ InRange 0 0 := by decide

/-- Both policies. -/
theorem witness_SetPixelOffFollowsThePolicy :
    State.reset.fb.wf = true ∧ State.reset.seq = .idle ∧ InRange 5 8 ∧
      State.reset.params.pixelOff = .clear ∧
      (State.resetWith { standardParams with pixelOff := .ignore }).params.pixelOff = .ignore ∧
      (State.resetWith { standardParams with pixelOff := .ignore }).fb.wf = true := by decide

/-- Each side of the range at its boundary. -/
theorem witness_SetPixelOutOfRangeIsReported :
    State.reset.seq = .idle ∧ ((-1 : Int) < 0) ∧ (127 < (128 : Int)) ∧ (63 < (64 : Int)) := by decide

theorem witness_SetPixelChangesOneBitAtMost :
    ∃ (s t : State) (x y : Int) (on : Bool), s.fb.wf = true ∧ exec (.setPixel x y on) s = .next t :=
  ⟨State.reset, _, 127, 63, true, rfl, rfl⟩

theorem witness_ReplaceFromRawReadsBack :
    State.reset.fb.wf = true ∧ State.reset.seq = .idle ∧ gridShape zeroGrid = true :=
  ⟨rfl, rfl, zeroGrid_shape⟩

/-- A request, a command and a page. -/
theorem witness_EveryInstructionAnswersInItsPlace :
    Instr.flush.wellFormed = true ∧ State.reset.seq = .idle ∧
      (stateAt (.init 8) []).seq.row standardConfig = some (Instr.setContrast 0xFF).row ∧
      (stateAt (.flush .buf 7 .data) []).seq.row standardConfig =
        some (Instr.pageData (List.replicate 128 0)).row := by decide

theorem witness_ExecRefusesOnlyOutOfPlace :
    Instr.displayOn.wellFormed = true ∧
      State.reset.seq.row standardConfig ≠ some Instr.displayOn.row ∧
      Instr.flush.carrier = .request ∧ (stateAt (.init 0) []).seq ≠ .idle := by decide

/-- An idle block, a request at the port and responses: all `Ok`, or a failure at a position. -/
def ready (label : BitVec 3) (rs : List Response) : State :=
  { State.reset with requests := [⟨label, .none⟩], responses := rs }

theorem witness_InitializeRunsItsProgram :
    (ready 3 (List.replicate 15 .ok)).seq = .idle ∧
      (ready 3 (List.replicate 15 .ok)).requests = [⟨3, .none⟩] ∧
      (ready 3 (List.replicate 15 .ok)).responses = List.replicate 15 .ok ++ [] ∧
      (ready 3 (List.replicate 14 .ok ++ [.err someTransportError])).responses =
        List.replicate (14 : Fin 15).val .ok ++ .err someTransportError :: [] := by decide

theorem witness_FlushSendsEightPages :
    (ready 4 (List.replicate 32 .ok)).seq = .idle ∧
      (ready 4 (List.replicate 32 .ok)).requests = [⟨4, .none⟩] ∧
      (ready 4 (List.replicate 32 .ok)).responses = List.replicate 32 .ok ++ [] ∧
      (ready 4 (List.replicate 31 .ok ++ [.err someTransportError])).responses =
        List.replicate (4 * (7 : Fin 8).val + PagePhase.data.index) .ok ++ .err someTransportError :: [] := by decide

theorem witness_ClearScreenSendsEightZeroPages :
    (ready 5 (List.replicate 32 .ok)).seq = .idle ∧
      (ready 5 (List.replicate 32 .ok)).requests = [⟨5, .none⟩] ∧
      (ready 5 (List.replicate 32 .ok)).responses = List.replicate 32 .ok ++ [] ∧
      (ready 5 [.err someTransportError]).responses =
        List.replicate (4 * (0 : Fin 8).val + PagePhase.pageSel.index) .ok ++ .err someTransportError :: [] := by decide

theorem witness_PresetChangesFourTransmissions :
    standardConfig.segmentRemap = .normal ∧ standardConfig.comScan = .normal ∧
      PresetLegal standardConfig 0x80 0x30 := by
  refine ⟨rfl, rfl, ?_, ?_⟩ <;> decide

theorem witness_RequestEndsWithinThirtyTwoSteps :
    (stateAt (.flush .zero 0 .pageSel) (List.replicate 32 .ok)).seq.owner = some .clearScreen ∧
      32 ≤ (stateAt (.flush .zero 0 .pageSel) (List.replicate 32 .ok)).responses.length := by decide

/-- A state of the invariant in the middle of INITIALIZE, two transmissions sent, and its next step. -/
def midInit : State :=
  { stateAt (.init 2) [.ok] with
    record := [.tx ⟨.cmd, [0xAE]⟩ .ok, .tx ⟨.cmd, [0xD5, 0x80]⟩ .ok] }

theorem midInit_inv : midInit.Inv where
  canonical := rfl
  legal := by
    intro e he
    simp only [midInit, List.mem_cons, List.not_mem_nil, or_false] at he
    rcases he with rfl | rfl
    · exact .inl rfl
    · exact .inr rfl
  coherent := by
    show openTransmissions midInit.record = _
    decide

theorem witness_StepKeepsTheInvariant : ∃ s t : State, s.Inv ∧ step s = .next t :=
  ⟨midInit, _, midInit_inv, rfl⟩

theorem witness_StepKeepsTheParameters : ∃ s t : State, step s = .next t := ⟨midInit, _, rfl⟩

theorem witness_OnlySetConfigWritesCfg :
    ∃ s t : State, step s = .next t ∧ t.cfg ≠ s.cfg :=
  ⟨presented ⟨2, .config (presetConfig standardConfig 0xCF 0x30)⟩, _, rfl, by decide⟩

theorem witness_OnlyThreeRequestsWriteFb : ∃ s t : State, step s = .next t ∧ t.fb ≠ s.fb :=
  ⟨presented ⟨0, .pixel 5 10 true⟩, _, rfl, by decide⟩

theorem witness_SequencesReadOnlyTheirOwnState :
    (stateAt (.init 14) [.ok]).seq = .init 14 ∧
      (stateAt (.flush .buf 7 .data) [.ok]).seq = .flush .buf 7 .data := ⟨rfl, rfl⟩

theorem witness_InitializeChangesOnlySeq :
    (∃ s t : State, s.seq = .init 2 ∧ step s = .next t) ∧
      (presented ⟨4, .none⟩).seq = .idle ∧ (presented ⟨4, .none⟩).requests = [⟨4, .none⟩] ∧
      decode (.request ⟨4, .none⟩) = .ok .flush :=
  ⟨⟨midInit, _, rfl, rfl⟩, rfl, rfl, rfl⟩

theorem witness_RecordGrowsWithTheSequence : ∃ s t : State, step s = .next t ∧ s.seq ≠ .idle :=
  ⟨midInit, _, rfl, by decide⟩

end Sys2Proof.Tests
end

section
/-! SUPPORT. The state's rules settled: the transmit step (R34), the bound on a request in progress (R35), and the
state after reset (R37). -/

namespace Sys2Proof.Machine

variable {s : State}

/-! ### Results -/

@[simp] theorem State.results_afterOk (tx : Tx) (later : List Response) (q : Seq) :
    (s.afterOk tx later q).results = s.results := by
  simp [State.results]

@[simp] theorem State.results_afterErr (tx : Tx) (e : TransportError) (later : List Response)
    (req : Instr) :
    (s.afterErr tx e later req).results = s.results ++ [(req, .transportFailure e)] := by
  simp [State.results]

@[simp] theorem State.results_finishWith (req : Instr) (res : Result) :
    (s.finishWith req res).results = s.results ++ [(req, res)] := by
  simp [State.results]

@[simp] theorem State.results_emit (tx : Tx) (resp : Response) (later : List Response) :
    (s.emit tx resp later).results = s.results := by
  simp [State.results]

@[simp] theorem State.results_finish : s.finish.results = s.results := by
  simp [State.results]

/-! ### The transmit step (R34) -/

/-- `Finish` writes FB at most (R196). -/
theorem State.finish_eq_with_fb : s.finish = { s with fb := s.finish.fb } := by
  rcases s.finish_eq_self_or_clearFb with h | h
  · rw [h]
  · rw [h]; rfl

/-- The state after the last transmission of a request, answered `Ok`, field by field. -/
theorem State.finishWith_emit_finish (tx : Tx) (later : List Response) (req : Instr) :
    (s.finish.emit tx .ok later).finishWith req .ok =
      { s with
        fb := s.finish.fb
        seq := .idle
        responses := later
        record := s.record ++ [.tx tx .ok, .result req .ok] } := by
  rw [State.finish_eq_with_fb]
  simp [State.emit, State.finishWith]

/-- Settles O17: each of the three outcomes of a transmission is a law of the step. -/
theorem transmitStepFollowsItsRule : Obligations.TransmitStepFollowsItsRule := by
  intro s i req resp later hi ho hr
  refine ⟨Seq.isLast_iff, ?_, ?_, ?_⟩
  · rintro rfl hl
    exact step_ok hi hr hl
  · rintro rfl hl
    rw [step_last hi ho hr hl, State.finishWith_emit_finish]
  · rintro e rfl
    exact step_err hi ho hr

/-! ### A request in progress ends (R35) -/

/-- A sequence has at most 32 positions (R142, R191). -/
theorem Seq.number_lt (q : Seq) : q.number < 32 := by
  cases q with
  | idle => decide
  | init k => simp only [Seq.number]; omega
  | flush src p ph => cases ph <;> simp only [Seq.number, PagePhase.index] <;> omega

/-- A position with an owner is busy. -/
theorem Seq.busy_of_owner {q : Seq} {req : Instr} (h : q.owner = some req) : q ≠ .idle := by
  rintro rfl
  cases h

/-- All a busy block does with a response at hand: it goes on to the next position with no result, or it is back in
`Idle` with one result, for the request in progress (R34). -/
theorem step_busy_cases {req : Instr} {resp : Response} {later : List Response}
    (ho : s.seq.owner = some req) (hr : s.responses = resp :: later) :
    (s.seq.isLast = false ∧ ∃ tx, step s = .next (s.afterOk tx later s.seq.next)) ∨
    ∃ t res, step s = .next t ∧ t.seq = .idle ∧ t.results = s.results ++ [(req, res)] := by
  obtain ⟨i, hi⟩ := Seq.instr_of_busy (Seq.busy_of_owner ho) s.cfg s.fb
  cases resp with
  | err e => exact .inr ⟨_, _, step_err hi ho hr, rfl, State.results_afterErr ..⟩
  | ok =>
    cases hl : s.seq.isLast
    · exact .inl ⟨rfl, _, step_ok hi hr hl⟩
    · exact .inr ⟨_, .ok, step_last hi ho hr hl, rfl, by simp⟩

/-- With `n` responses to come and at most `n` positions left, the request in progress ends within `n` steps with one
result: a step that does not end it moves to the next position number. -/
theorem runSteps_ends_request {req : Instr} {n : Nat} (ho : s.seq.owner = some req)
    (hn : 32 ≤ s.seq.number + n) (hr : n ≤ s.responses.length) :
    ∃ m t res, m ≤ n ∧ runSteps m s = .next t ∧ t.seq = .idle ∧
      t.results = s.results ++ [(req, res)] := by
  induction n generalizing s with
  | zero => exact absurd s.seq.number_lt (by omega)
  | succ n ih =>
    obtain ⟨resp, later, hresp⟩ := List.exists_cons_of_length_pos (by omega : 0 < s.responses.length)
    rcases step_busy_cases ho hresp with ⟨hl, tx, hs⟩ | ⟨t, res, hs, hidle, hres⟩
    · obtain ⟨-, hnext, hnum⟩ := Seq.next_of_not_last hl (Seq.busy_of_owner ho)
      rw [hresp, List.length_cons] at hr
      obtain ⟨m, t, res, hm, hrun, hidle, hres⟩ :=
        ih (s := s.afterOk tx later s.seq.next) (hnext.trans ho)
          (by rw [State.afterOk_seq, hnum]; omega) (by rw [State.afterOk_responses]; omega)
      rw [State.results_afterOk] at hres
      exact ⟨m + 1, t, res, by omega, (runSteps_of_next hs m).trans hrun, hidle, hres⟩
    · exact ⟨1, t, res, by omega, runSteps_of_next hs 0, hidle, hres⟩

/-- Settles O45: 32 steps are enough from every position. -/
theorem requestEndsWithinThirtyTwoSteps : Obligations.RequestEndsWithinThirtyTwoSteps :=
  fun _ _ ho hr => runSteps_ends_request ho (by omega) hr

/-! ### Reset (R37) -/

/-- After reset every byte of FB reads `0x00`. -/
@[simp] theorem State.fbRead_resetWith (p : Params) (pg : Fin 8) (c : Fin 128) :
    (State.resetWith p).fbRead pg c = 0 :=
  Memory.read_nil (linearIndex pg c)

/-- Settles O12, field by field from the laws of the reset state. -/
theorem resetHoldsTheStatedValues : Obligations.ResetHoldsTheStatedValues :=
  ⟨fun p => ⟨State.fbRead_resetWith p, State.resetWith_cfg p, State.resetWith_seq p,
    State.resetWith_record p⟩, rfl⟩

end Sys2Proof.Machine
end

section
/-! SUPPORT. The page-address translator settled: its place (R52) and its inverse (R53). -/

namespace Sys2Proof.Machine

/-- Settles O9: the two cases of the range test, each a law of the translator. -/
theorem translatorGivesPageColumnBit : Obligations.TranslatorGivesPageColumnBit :=
  fun _ _ => ⟨translatePixel_of_inRange, translatePixel_of_not_inRange⟩

/-- The inverse of a place is a visible pixel: the widths of page, column and bit are the range of R52. -/
theorem PixelPlace.inRange (w : PixelPlace) : InRange w.x w.y := by
  have := w.page.isLt; have := w.column.isLt; have := w.bit.isLt
  simp only [InRange, PixelPlace.x, PixelPlace.y]
  omega

/-- A place is told by its inverse: `y = 8 page + bit` with `bit < 8` tells page and bit. -/
theorem PixelPlace.eq_of_coordinates {w w' : PixelPlace} (hx : w.x = w'.x) (hy : w.y = w'.y) :
    w = w' := by
  have := w.bit.isLt; have := w'.bit.isLt
  simp only [PixelPlace.x, PixelPlace.y] at hx hy
  exact PixelPlace.ext_iff'.mpr ⟨Fin.ext (by omega), Fin.ext (by omega), Fin.ext (by omega)⟩

/-- The inverse undoes the translation: `8 * (y / 8) + y % 8 = y`. -/
theorem translatePixel_coordinates_of_inRange {x y : Int} (h : InRange x y) :
    ∃ w, translatePixel x y = some w ∧ w.x = x ∧ w.y = y := by
  obtain ⟨w, hw, hpage, hcolumn, hbit⟩ := translatePixel_of_inRange h
  refine ⟨w, hw, hcolumn, ?_⟩
  rw [PixelPlace.y, hpage, hbit, Int.mul_ediv_add_emod]

/-- The translation and the inverse of R53 are one relation of coordinates and places. -/
theorem translatePixel_eq_some_iff {x y : Int} {w : PixelPlace} :
    translatePixel x y = some w ↔ w.x = x ∧ w.y = y := by
  constructor
  · intro h
    by_cases hr : InRange x y
    · obtain ⟨w', hw', hcoord⟩ := translatePixel_coordinates_of_inRange hr
      obtain rfl : w' = w := Option.some.inj (hw'.symm.trans h)
      exact hcoord
    · cases (translatePixel_of_not_inRange hr).symm.trans h
  · rintro ⟨rfl, rfl⟩
    obtain ⟨w', hw', hx, hy⟩ := translatePixel_coordinates_of_inRange w.inRange
    rwa [PixelPlace.eq_of_coordinates hx hy] at hw'

/-- Two coordinates with one place are equal. An in-range coordinate has a place; without one the two could both be out
of range. -/
theorem translatePixel_injOn {x y x' y' : Int} (hr : InRange x y)
    (h : translatePixel x y = translatePixel x' y') : x' = x ∧ y' = y := by
  obtain ⟨w, hw, hx, hy⟩ := translatePixel_coordinates_of_inRange hr
  obtain ⟨hx', hy'⟩ := translatePixel_eq_some_iff.mp (h.symm.trans hw)
  exact ⟨hx'.symm.trans hx, hy'.symm.trans hy⟩

/-- Settles O10: the translation is the converse of the inverse, every place has an in-range inverse, and so the
translation is onto the places and one-to-one. -/
theorem translatorIsABijection : Obligations.TranslatorIsABijection :=
  ⟨fun _ _ _ => translatePixel_eq_some_iff,
    fun w => ⟨w.inRange, translatePixel_eq_some_iff.mpr ⟨rfl, rfl⟩⟩,
    fun _ _ _ _ => translatePixel_injOn⟩

end Sys2Proof.Machine
end

section
/-! SUPPORT. Byte 0 of a command settled (R85): the bytes each family of commands takes, then which bytes are a whole
command and which open one of two bytes. -/

namespace Sys2Proof

/-! ### The bytes of one family -/

/-- SET_START_LINE's byte under CMD_TABLE's default, as a number (R105). -/
theorem toNat_startLineByte (l : Byte) :
    (startLineByte standardTable l).toNat = 0x40 + l.toNat % 64 := by
  revert l; decide +kernel

/-- SET_PAGE's byte as a number (R116). -/
theorem toNat_pageByte (p : Fin 8) : (pageByte p).toNat = 0xB0 + p.val := by
  revert p; decide +kernel

/-- SET_COL_LOW's byte as a number (R117). -/
theorem toNat_colLowByte (c : Fin 128) : (colLowByte c).toNat = c.val % 16 := by
  revert c; decide +kernel

/-- SET_COL_HIGH's byte as a number (R118). -/
theorem toNat_colHighByte (c : Fin 128) : (colHighByte c).toNat = 0x10 + c.val / 16 := by
  revert c; decide +kernel

theorem exists_startLineByte_iff {b : Byte} :
    (∃ l, startLineByte standardTable l = b) ↔ 0x40 ≤ b.toNat ∧ b.toNat ≤ 0x7F := by
  constructor
  · rintro ⟨l, rfl⟩
    rw [toNat_startLineByte]
    omega
  · rintro ⟨hlo, hhi⟩
    exact ⟨b, BitVec.eq_of_toNat_eq (by rw [toNat_startLineByte]; omega)⟩

theorem exists_pageByte_iff {b : Byte} :
    (∃ p, pageByte p = b) ↔ 0xB0 ≤ b.toNat ∧ b.toNat ≤ 0xB7 := by
  constructor
  · rintro ⟨p, rfl⟩
    rw [toNat_pageByte]
    omega
  · rintro ⟨hlo, hhi⟩
    exact ⟨⟨b.toNat - 0xB0, by omega⟩,
      BitVec.eq_of_toNat_eq (by rw [toNat_pageByte]; dsimp only; omega)⟩

theorem exists_colLowByte_iff {b : Byte} : (∃ c, colLowByte c = b) ↔ b.toNat ≤ 0x0F := by
  constructor
  · rintro ⟨c, rfl⟩
    rw [toNat_colLowByte]
    omega
  · intro hhi
    exact ⟨⟨b.toNat, by omega⟩, BitVec.eq_of_toNat_eq (by rw [toNat_colLowByte]; dsimp only; omega)⟩

theorem exists_colHighByte_iff {b : Byte} :
    (∃ c, colHighByte c = b) ↔ 0x10 ≤ b.toNat ∧ b.toNat ≤ 0x17 := by
  constructor
  · rintro ⟨c, rfl⟩
    rw [toNat_colHighByte]
    omega
  · rintro ⟨hlo, hhi⟩
    exact ⟨⟨16 * (b.toNat - 0x10), by omega⟩,
      BitVec.eq_of_toNat_eq (by rw [toNat_colHighByte]; dsimp only; omega)⟩

/-- The bytes of the two column commands together: the two families meet at `0x10`. -/
theorem exists_columnByte_iff {b : Byte} :
    ((∃ c, colLowByte c = b) ∨ ∃ c, colHighByte c = b) ↔ b.toNat ≤ 0x17 := by
  rw [exists_colLowByte_iff, exists_colHighByte_iff]
  omega

/-! ### The bytes of all commands of one length -/

/-- A one-byte command has the byte of a column, a line or a page, or one that the command table lists (R85). -/
theorem exists_oneByteCommand_iff (t : CmdTable) {b : Byte} :
    (∃ i : Instr, commandBytes t i = [b]) ↔
      (∃ c, colLowByte c = b) ∨ (∃ c, colHighByte c = b) ∨ (∃ l, startLineByte t l = b) ∨
      (∃ p, pageByte p = b) ∨
      b ∈ [t.segmentNormal, t.segmentRemapped, t.displayResume, t.modeNormal, t.modeInverse,
        t.displayOff, t.displayOn, t.comNormal, t.comRemapped] := by
  constructor
  · rintro ⟨i, h⟩
    cases i with
    | setColLow c => exact .inl ⟨c, List.singleton_inj.mp h⟩
    | setColHigh c => exact .inr (.inl ⟨c, List.singleton_inj.mp h⟩)
    | setStartLine l => exact .inr (.inr (.inl ⟨l, List.singleton_inj.mp h⟩))
    | setPage p => exact .inr (.inr (.inr (.inl ⟨p, List.singleton_inj.mp h⟩)))
    | displayOff | displayOn | entireDisplayResume =>
      obtain rfl := List.singleton_inj.mp h
      simp
    | setSegmentRemap r | setComScan r | setDisplayMode r =>
      obtain rfl := List.singleton_inj.mp h
      cases r <;> simp [segmentRemapByte, comScanByte, displayModeByte]
    | _ => cases h
  · rintro (⟨c, rfl⟩ | ⟨c, rfl⟩ | ⟨l, rfl⟩ | ⟨p, rfl⟩ | h)
    · exact ⟨.setColLow c, rfl⟩
    · exact ⟨.setColHigh c, rfl⟩
    · exact ⟨.setStartLine l, rfl⟩
    · exact ⟨.setPage p, rfl⟩
    · simp only [List.mem_cons, List.not_mem_nil, or_false] at h
      rcases h with rfl | rfl | rfl | rfl | rfl | rfl | rfl | rfl | rfl
      · exact ⟨.setSegmentRemap .normal, rfl⟩
      · exact ⟨.setSegmentRemap .remapped, rfl⟩
      · exact ⟨.entireDisplayResume, rfl⟩
      · exact ⟨.setDisplayMode .normal, rfl⟩
      · exact ⟨.setDisplayMode .inverse, rfl⟩
      · exact ⟨.displayOff, rfl⟩
      · exact ⟨.displayOn, rfl⟩
      · exact ⟨.setComScan .normal, rfl⟩
      · exact ⟨.setComScan .remapped, rfl⟩

/-- A two-byte command opens with one of eight bytes of the command table (R85). -/
theorem exists_twoByteCommand_iff (t : CmdTable) {b : Byte} :
    (∃ (i : Instr) (v : Byte), commandBytes t i = [b, v]) ↔
      b ∈ [t.contrast, t.chargePump, t.muxRatio, t.displayOffset, t.clockDiv, t.precharge, t.comPins,
        t.vcomh] := by
  constructor
  · rintro ⟨i, v, h⟩
    cases i with
    | setContrast | setChargePump | setMuxRatio | setDisplayOffset | setClockDiv | setPrecharge
    | setComPins | setVcomh =>
      obtain ⟨rfl, -⟩ := List.cons.inj h
      simp
    | _ => cases h
  · intro h
    simp only [List.mem_cons, List.not_mem_nil, or_false] at h
    rcases h with rfl | rfl | rfl | rfl | rfl | rfl | rfl | rfl
    · exact ⟨.setContrast 0, 0, rfl⟩
    · exact ⟨.setChargePump .disabled, _, rfl⟩
    · exact ⟨.setMuxRatio 0, 0, rfl⟩
    · exact ⟨.setDisplayOffset 0, 0, rfl⟩
    · exact ⟨.setClockDiv 0, 0, rfl⟩
    · exact ⟨.setPrecharge 0, 0, rfl⟩
    · exact ⟨.setComPins 0, 0, rfl⟩
    · exact ⟨.setVcomh 0, 0, rfl⟩

/-! ### Under CMD_TABLE's default -/

/-- R85's list of the one-byte commands. -/
theorem exists_standardOneByteCommand_iff {b : Byte} :
    (∃ i : Instr, commandBytes standardTable i = [b]) ↔
      b.toNat ≤ 0x17 ∨ (0x40 ≤ b.toNat ∧ b.toNat ≤ 0x7F) ∨ (0xB0 ≤ b.toNat ∧ b.toNat ≤ 0xB7) ∨
      b ∈ ([0xA0, 0xA1, 0xA4, 0xA6, 0xA7, 0xAE, 0xAF, 0xC0, 0xC8] : List Byte) := by
  rw [exists_oneByteCommand_iff, ← or_assoc, exists_columnByte_iff, exists_startLineByte_iff,
    exists_pageByte_iff]
  rfl

/-- None of the eight bytes that open a two-byte command is in R85's list of the one-byte commands. -/
theorem standardOpener_not_oneByteCommand :
    ∀ b ∈ ([0x81, 0x8D, 0xA8, 0xD3, 0xD5, 0xD9, 0xDA, 0xDB] : List Byte),
      ¬ (b.toNat ≤ 0x17 ∨ (0x40 ≤ b.toNat ∧ b.toNat ≤ 0x7F) ∨ (0xB0 ≤ b.toNat ∧ b.toNat ≤ 0xB7) ∨
        b ∈ ([0xA0, 0xA1, 0xA4, 0xA6, 0xA7, 0xAE, 0xAF, 0xC0, 0xC8] : List Byte)) := by
  decide

/-- Settles O3: the two lists are those of the two lengths under the default table, and they do not meet. -/
theorem byteZeroTellsTheLength : Obligations.ByteZeroTellsTheLength := by
  refine ⟨fun b => exists_standardOneByteCommand_iff,
    fun b => exists_twoByteCommand_iff standardTable, ?_⟩
  intro b
  rw [exists_standardOneByteCommand_iff, exists_twoByteCommand_iff, not_and']
  exact standardOpener_not_oneByteCommand b

end Sys2Proof
end

section
/-! SUPPORT. Refusals settled (R82): what the decoder of requests takes, and that a step refuses nothing else. -/

namespace Sys2Proof

/-! ### The requests of R80 -/

/-- A request is told by its label's number and its operands. -/
theorem PortRequest.eq_of_label_operands {r : PortRequest} {n : Nat} {ops : Operands}
    (hl : r.label.toNat = n) (ho : r.operands = ops) : r = ⟨BitVec.ofNat 3 n, ops⟩ := by
  subst hl ho
  rw [BitVec.ofNat_toNat, BitVec.setWidth_eq]

/-- A request that decodes is the encoding of what it decodes to: the decoder has checked the label and the shape of
the operands (R80). -/
theorem encode_of_decodeRequest {r : PortRequest} {i : Instr} (h : decodeRequest r = .ok i) :
    encode i = .request r := by
  unfold decodeRequest at h
  repeat' split at h
  all_goals cases h
  all_goals
    exact congrArg Code.request (PortRequest.eq_of_label_operands ‹r.label.toNat = _› ‹_›).symm

/-- The encoding of a well-formed request decodes to it (R80). -/
theorem decodeRequest_of_encode {r : PortRequest} {i : Instr} (hw : i.wellFormed = true)
    (h : encode i = .request r) : decodeRequest r = .ok i := by
  cases i with
  | setPixel | setConfig | runInit | flush | clearScreen => cases h; rfl
  | replaceFromRaw pages => cases h; exact if_pos hw
  | _ => cases h

/-- A request does not decode exactly when it is not in R80. -/
theorem decodeRequest_error_iff {r : PortRequest} :
    (∃ why, decodeRequest r = .error why) ↔
      ∀ i : Instr, i.wellFormed = true → encode i ≠ .request r := by
  constructor
  · rintro ⟨why, he⟩ i hw hi
    cases (decodeRequest_of_encode hw hi).symm.trans he
  · intro h
    cases hd : decodeRequest r with
    | error why => exact ⟨why, rfl⟩
    | ok i =>
      exact absurd (encode_of_decodeRequest hd) (h i (Machine.decodeRequest_carrier hd).2)

/-- Labels 6 and 7 are refused by name, whatever the operands (R82). -/
theorem decodeRequest_unknownLabel {l : BitVec 3} (h : l = 6 ∨ l = 7) (ops : Operands) :
    decodeRequest ⟨l, ops⟩ = .error (.unknownLabel l) := by
  rcases h with rfl | rfl <;> rfl

namespace Machine

variable {s : State}

/-! ### Refusals of a step -/

/-- A well-formed request has a next state in every idle state (R33). -/
theorem exec_request_next_of_idle {i : Instr} (hc : i.carrier = .request) (hw : i.wellFormed = true)
    (hi : s.seq = .idle) : ∃ t, exec i s = .next t := by
  cases i with
  | setPixel | setConfig | runInit | flush | clearScreen => exact ⟨_, acceptWhenIdle_idle hi _⟩
  | replaceFromRaw pages =>
    exact ⟨_, (acceptWhenIdle_idle hi _).trans (replaceEffect_of_shape hw s)⟩
  | _ => cases hc

/-- A busy block has a next state, whatever stands at its ports (R34). -/
theorem step_next_of_busy (hq : s.seq ≠ .idle) : ∃ t, step s = .next t := by
  obtain ⟨i, hi⟩ := Seq.instr_of_busy hq s.cfg s.fb
  obtain ⟨req, ho⟩ := Seq.owner_of_busy hq
  rw [step_of_instr hi]
  cases hr : s.responses with
  | nil => exact ⟨s, transmit_waits hq hr _⟩
  | cons resp later => exact ⟨_, transmit_of_response ho hr _⟩

/-- All a step can do, the refusal included: it refuses a request at the port that does not decode, or it has a next
state. -/
theorem step_refuses_or_next (s : State) :
    (∃ req q why, s.seq = .idle ∧ s.requests = req :: q ∧ decodeRequest req = .error why) ∨
    ∃ t, step s = .next t := by
  by_cases hi : s.seq = .idle
  · cases hr : s.requests with
    | nil => exact .inr ⟨s, step_idle_empty hi hr⟩
    | cons req q =>
      cases hd : decodeRequest req with
      | error why => exact .inl ⟨req, q, why, hi, rfl, hd⟩
      | ok i =>
        obtain ⟨hc, hw⟩ := decodeRequest_carrier hd
        rw [step_idle_request hi hr hd]
        exact .inr (exec_request_next_of_idle hc hw hi)
  · exact .inr (step_next_of_busy hi)

/-- A step refuses exactly a request at the port of an idle block that does not decode (R82). -/
theorem step_refused_iff {r : Refusal} :
    step s = .refused r ↔ s.seq = .idle ∧ ∃ req q why, s.requests = req :: q ∧
      decodeRequest req = .error why ∧ r = .undecodable why := by
  constructor
  · intro h
    rcases step_refuses_or_next s with ⟨req, q, why, hi, hr, hd⟩ | ⟨t, ht⟩
    · cases (step_idle_undecodable hi hr hd).symm.trans h
      exact ⟨hi, req, q, why, hr, hd, rfl⟩
    · cases ht.symm.trans h
  · rintro ⟨hi, req, q, why, hr, hd, rfl⟩
    exact step_idle_undecodable hi hr hd

/-- Settles O21: the labels by the decoder, the refusals by the cases of a step, the refused requests by the round trip
of requests. -/
theorem onlyUnknownRequestsAreRefused : Obligations.OnlyUnknownRequestsAreRefused :=
  ⟨fun _ _ ops _ hi hr hl => step_idle_undecodable hi hr (decodeRequest_unknownLabel hl ops),
    fun _ _ => step_refused_iff, fun _ => decodeRequest_error_iff⟩

end Machine

end Sys2Proof
end

section
/-! SUPPORT. The register commands settled: the length of each (R121), and the column that the column pair carries
(R119). -/

namespace Sys2Proof

/-! ### Lengths (R121) -/

/-- `Len` is the length of `Enc`, instruction by instruction: no byte of the command table is looked at. One that is no
register command has no bytes and length 0, so the carrier does not matter. -/
@[simp] theorem length_commandBytes (t : CmdTable) (i : Instr) :
    (commandBytes t i).length = commandLength i.row := by
  cases i <;> rfl

/-- The rows of two bytes: an opcode and an operand. -/
theorem commandLength_eq_two_iff (r : Row) :
    commandLength r = 2 ↔
      r ∈ [Row.setClockDiv, .setMuxRatio, .setDisplayOffset, .setComPins, .setContrast,
        .setPrecharge, .setVcomh, .setChargePump] := by
  cases r <;> decide

/-- The rows of one byte: any operand is a field of the opcode byte. -/
theorem commandLength_eq_one_iff (r : Row) :
    commandLength r = 1 ↔
      r ∈ [Row.displayOff, .setStartLine, .setSegmentRemap, .setComScan, .entireDisplayResume,
        .setDisplayMode, .displayOn, .setPage, .setColLow, .setColHigh] := by
  cases r <;> decide

/-- Settles O2: the length is the row's under every table, and the rows of each length are listed. -/
theorem encodedLengthIsFixedPerCommand : Obligations.EncodedLengthIsFixedPerCommand :=
  ⟨fun t i _ => length_commandBytes t i, commandLength_eq_two_iff, commandLength_eq_one_iff⟩

/-! ### The column pair (R119) -/

/-- The low nibble of a byte as a number. -/
theorem toNat_and_0x0F (b : Byte) : (b &&& 0x0F).toNat = b.toNat % 16 := by
  rw [BitVec.toNat_and]
  exact Nat.and_two_pow_sub_one_eq_mod b.toNat 4

/-- SET_COL_LOW carries the column's low nibble (R117). -/
theorem toNat_colLowByte_lowNibble (c : Fin 128) : (colLowByte c &&& 0x0F).toNat = c.val % 16 := by
  rw [toNat_and_0x0F, toNat_colLowByte, Nat.mod_mod]

/-- SET_COL_HIGH carries the column's high nibble: below 128 it is under 8, so it does not reach the opcode bit `0x10`
(R118). -/
theorem toNat_colHighByte_lowNibble (c : Fin 128) :
    (colHighByte c &&& 0x0F).toNat = c.val / 16 := by
  rw [toNat_and_0x0F, toNat_colHighByte]
  omega

/-- Settles O5: the two bytes carry the quotient and the remainder of the column by 16. -/
theorem columnPairDeterminesColumn : Obligations.ColumnPairDeterminesColumn := by
  intro t c l h hl hh
  obtain rfl : colLowByte c = l := List.singleton_inj.mp hl
  obtain rfl : colHighByte c = h := List.singleton_inj.mp hh
  rw [toNat_colHighByte_lowNibble, toNat_colLowByte_lowNibble, Nat.div_add_mod]

end Sys2Proof
end

section
/-! SUPPORT. A whole sequence as one function of the transport's responses (R34): all `Ok`, or a first `Err(e)` at
position `n`; then INITIALIZE settled (R143, R149). -/

namespace Sys2Proof.Machine

variable {s : State}

/-! ### Positions and their number -/

/-- `Last` is the position whose number is the highest of its sequence (R34, R142, R191). -/
theorem Seq.isLast_iff_number (q : Seq) (c : Cfg) (fb : Memory) :
    q.isLast = true ↔ q.number + 1 = (q.program c fb).length := by
  cases q with
  | idle => simp [Seq.isLast, Seq.number, Seq.program]
  | init k =>
    show (k == 14) = true ↔ k.val + 1 = 15
    rw [beq_iff_eq, Fin.ext_iff]
    exact (Nat.succ_inj (b := 14)).symm
  | flush src p ph =>
    show _ ↔ 4 * p.val + ph.index + 1 = 32
    cases ph <;> simp [Seq.isLast, PagePhase.index, Fin.ext_iff] <;> omega

/-- Which FB `Finish` leaves is told by the request in progress, FB and the parameters (R196). -/
theorem State.finish_fb (s : State) :
    s.finish.fb = if s.seq.owner = some .flush ∧ s.params.clearAfterFlush then [] else s.fb := by
  cases hq : s.seq with
  | idle => simp [State.finish, hq, Seq.owner]
  | init k => simp [State.finish_init s hq, Seq.owner]
  | flush src p ph =>
    cases src with
    | buf =>
      rw [State.finish_flush_buf s hq]
      by_cases hc : s.params.clearAfterFlush <;> simp [hc, Seq.owner]
    | zero => simp [State.finish_flush_zero s hq, Seq.owner]

/-! ### The run of a sequence, from its first position -/

/-- The block after `n` transmissions of its sequence, all answered `Ok`, at position `q`: the ports, the record and
`seq` have changed and nothing else. -/
def State.afterOks (s : State) (n : Nat) (later : List Response) (q : Seq) : State :=
  { s with
    seq := q
    responses := later
    record := s.record ++ okEvents s.params.cmdTable ((s.seq.program s.cfg s.fb).take n) }

/-- One more transmission answered `Ok`. -/
theorem State.afterOk_afterOks {n : Nat} {i : Instr} (hi : (s.seq.program s.cfg s.fb)[n]? = some i)
    (l later : List Response) (q q' : Seq) :
    (s.afterOks n l q).afterOk (txOf s.params.cmdTable i) later q' =
      s.afterOks (n + 1) later q' := by
  simp [State.afterOks, State.afterOk, List.take_add_one, hi, okEvents]

/-- Short of the last position, `n` answers `Ok` bring the request in progress from position 0 of its sequence to
position `n` (R34, R142, R191). -/
theorem runSteps_oks {req : Instr} {n : Nat} {later : List Response}
    (ho : s.seq.owner = some req) (h0 : s.seq.number = 0)
    (hn : n < (s.seq.program s.cfg s.fb).length)
    (hr : s.responses = List.replicate n .ok ++ later) :
    ∃ (q : Seq) (i : Instr), q.owner = some req ∧ q.number = n ∧
      q.program s.cfg s.fb = s.seq.program s.cfg s.fb ∧ q.instr s.cfg s.fb = some i ∧
      (s.seq.program s.cfg s.fb)[n]? = some i ∧ runSteps n s = .next (s.afterOks n later q) := by
  induction n generalizing later with
  | zero =>
    obtain ⟨i, hi⟩ := Seq.instr_of_busy (Seq.busy_of_owner ho) s.cfg s.fb
    refine ⟨s.seq, i, ho, h0, rfl, hi, h0 ▸ Seq.getElem?_program hi, ?_⟩
    simp [runSteps_zero, State.afterOks, okEvents, ← show s.responses = later from hr]
  | succ n ih =>
    obtain ⟨q, i, hqo, hqn, hqp, hqi, hi, hrun⟩ :=
      ih (by omega) (later := .ok :: later) (by rw [hr, List.replicate_succ', List.append_assoc]; rfl)
    have hl : q.isLast = false := Bool.eq_false_iff.mpr fun h => by
      rw [Seq.isLast_iff_number q s.cfg s.fb, hqp] at h
      omega
    obtain ⟨hb, ho', hn'⟩ := Seq.next_of_not_last hl (Seq.busy_of_owner hqo)
    have hp' : q.next.program s.cfg s.fb = s.seq.program s.cfg s.fb :=
      (Seq.program_next hl).trans hqp
    obtain ⟨j, hj⟩ := Seq.instr_of_busy hb s.cfg s.fb
    refine ⟨q.next, j, ho'.trans hqo, hn'.trans (by rw [hqn]), hp', hj, ?_, ?_⟩
    · rw [← hp', ← hqn, ← hn']
      exact Seq.getElem?_program hj
    · have hstep : step (s.afterOks n (.ok :: later) q) = .next _ :=
        step_ok (i := i) hqi rfl hl
      rw [runSteps_add hrun 1, runSteps_of_next hstep, runSteps_zero]
      exact congrArg _ (State.afterOk_afterOks hi _ _ _ _)

/-- Every transmission of a sequence answered `Ok`: they go out in order and the request completes (R34, R196). -/
theorem runSteps_sequence_ok {req : Instr} {n : Nat} {later : List Response}
    (ho : s.seq.owner = some req) (h0 : s.seq.number = 0)
    (hn : (s.seq.program s.cfg s.fb).length = n + 1)
    (hr : s.responses = List.replicate (n + 1) .ok ++ later) :
    runSteps (n + 1) s = .next
      { s with
        fb := s.finish.fb
        seq := .idle
        responses := later
        record := s.record ++ okEvents s.params.cmdTable (s.seq.program s.cfg s.fb) ++
          [.result req .ok] } := by
  obtain ⟨q, i, hqo, hqn, hqp, hqi, hi, hrun⟩ := runSteps_oks ho h0 (n := n) (later := .ok :: later)
    (by omega) (by rw [hr, List.replicate_succ', List.append_assoc]; rfl)
  have hl : q.isLast = true := by rw [Seq.isLast_iff_number q s.cfg s.fb, hqp, hqn, hn]
  have hstep := step_last (s := s.afterOks n (.ok :: later) q) (i := i) hqi hqo rfl hl
  have hfb : (s.afterOks n (.ok :: later) q).finish.fb = s.finish.fb := by
    rw [State.finish_fb, State.finish_fb, ho, ← hqo]
    rfl
  have hprog : okEvents s.params.cmdTable (s.seq.program s.cfg s.fb) =
      okEvents s.params.cmdTable ((s.seq.program s.cfg s.fb).take n) ++
        [.tx (txOf s.params.cmdTable i) .ok] := by
    conv_lhs => rw [← List.take_length (l := s.seq.program s.cfg s.fb), hn, List.take_add_one, hi]
    exact List.map_append
  rw [runSteps_add hrun 1, runSteps_of_next hstep, runSteps_zero, State.finishWith_emit_finish,
    hfb, hprog]
  simp [State.afterOks]

/-- A first `Err(e)` at position `n`: the transmissions before it, it, and TransportFailure(e) (R34, R224). -/
theorem runSteps_sequence_err {req i : Instr} {n : Nat} {e : TransportError} {later : List Response}
    (ho : s.seq.owner = some req) (h0 : s.seq.number = 0)
    (hi : (s.seq.program s.cfg s.fb)[n]? = some i)
    (hr : s.responses = List.replicate n .ok ++ .err e :: later) :
    runSteps (n + 1) s = .next
      { s with
        seq := .idle
        responses := later
        record := s.record ++ okEvents s.params.cmdTable ((s.seq.program s.cfg s.fb).take n) ++
          [.tx (txOf s.params.cmdTable i) (.err e), .result req (.transportFailure e)] } := by
  obtain ⟨hn, -⟩ := List.getElem?_eq_some_iff.mp hi
  obtain ⟨q, j, hqo, -, -, hqj, hj, hrun⟩ := runSteps_oks ho h0 hn hr
  obtain rfl : j = i := Option.some.inj (hj.symm.trans hi)
  have hstep := step_err (s := s.afterOks n (.err e :: later) q) (i := j) hqj hqo rfl
  rw [runSteps_add hrun 1, runSteps_of_next hstep]
  rfl

/-! ### INITIALIZE (R143, R149) -/

/-- INITIALIZE at the port of an idle block is accepted (R33). -/
theorem step_runInit {q : List PortRequest} (hi : s.seq = .idle)
    (hr : s.requests = ⟨3, .none⟩ :: q) :
    step s = .next { s with seq := initStart, requests := q } :=
  (step_idle_request hi hr rfl).trans (acceptWhenIdle_idle hi _)

/-- Settles O40: the accept step, then the run of the initialization program. -/
theorem initializeRunsItsProgram : Obligations.InitializeRunsItsProgram := by
  intro s q hi hreq
  have hstep := step_runInit hi hreq
  constructor
  · intro later hr
    have hrun := runSteps_sequence_ok (s := { s with seq := initStart, requests := q }) rfl rfl rfl hr
    rw [runSteps_of_next hstep 15]
    refine hrun.trans ?_
    rw [← hi]
    rfl
  · intro n e later hr
    have hrun := runSteps_sequence_err (s := { s with seq := initStart, requests := q }) rfl rfl
      (Seq.getElem?_program (q := .init n) (c := s.cfg) (fb := s.fb) rfl) hr
    rw [runSteps_of_next hstep]
    refine hrun.trans ?_
    rw [← hi]
    rfl

end Sys2Proof.Machine
end

section
/-! SUPPORT. The configuration and initialization sequencer settled: the program's bytes (R142), the preset against the
default (R151), the order of the positions (R145, R193), SET_CONFIG (R140), and what INITIALIZE leaves alone (R150). -/

namespace Sys2Proof.Machine

variable {s t : State}

/-! ### The initialization program (R142) -/

/-- `InitCmd(k, C)` is the entry of the program at index `k`. -/
theorem getElem?_initProgram (k : Fin 15) (c : Cfg) : (initProgram c)[k.val]? = some (initCmd k c) :=
  List.getElem?_eq_getElem k.isLt

/-- The default byte of SET_SEGMENT_REMAP (R106). -/
theorem segmentRemapByte_standardTable (r : Remap) :
    segmentRemapByte standardTable r = if r = .normal then 0xA0 else 0xA1 := by
  cases r <;> rfl

/-- The default byte of SET_COM_SCAN (R107). -/
theorem comScanByte_standardTable (r : Remap) :
    comScanByte standardTable r = if r = .normal then 0xC0 else 0xC8 := by
  cases r <;> rfl

/-- The default byte of SET_DISPLAY_MODE (R113). -/
theorem displayModeByte_standardTable (m : DisplayMode) :
    displayModeByte standardTable m = if m = .normal then 0xA6 else 0xA7 := by
  cases m <;> rfl

/-- Settles O6: the bytes of a raw operand are its own; a choice has the byte of its default. -/
theorem initProgramIsTheTable : Obligations.InitProgramIsTheTable := by
  intro c
  refine ⟨fun k => getElem?_initProgram k c, rfl, ?_⟩
  rw [← segmentRemapByte_standardTable, ← comScanByte_standardTable, ← displayModeByte_standardTable]
  obtain ⟨_, _, _, _, _, _, _, _, _, _, _, pump⟩ := c
  cases pump <;> rfl

/-! ### The preset against the default (R151) -/

section preset
variable (dflt : Cfg) (pc pv : Byte)

/-- The preset's program is the default's with four commands replaced (R141, R142). -/
theorem initProgram_presetConfig :
    initProgram (presetConfig dflt pc pv) =
      ((((initProgram dflt).set 5 (.setSegmentRemap .remapped)).set 6 (.setComScan .remapped)).set 8
        (.setContrast pc)).set 10 (.setVcomh pv) := rfl

/-- The other eleven commands are the same. -/
theorem initCmd_presetConfig_of_not_mem {k : Fin 15} (h : k ∉ ([5, 6, 8, 10] : List (Fin 15))) :
    initCmd k (presetConfig dflt pc pv) = initCmd k dflt := by
  apply Option.some.inj
  simp only [List.mem_cons, List.not_mem_nil, or_false, not_or, Fin.ext_iff] at h
  obtain ⟨h5, h6, h8, h10⟩ := h
  rw [← getElem?_initProgram, ← getElem?_initProgram, initProgram_presetConfig,
    List.getElem?_set_ne (i := 10) (Ne.symm h10), List.getElem?_set_ne (i := 8) (Ne.symm h8),
    List.getElem?_set_ne (i := 6) (Ne.symm h6), List.getElem?_set_ne (i := 5) (Ne.symm h5)]

end preset

/-- The bytes a step of INITIALIZE transmits are the command's (R144). -/
theorem txOf_initCmd (tbl : CmdTable) (k : Fin 15) (c : Cfg) :
    txOf tbl (initCmd k c) = ⟨.cmd, commandBytes tbl (initCmd k c)⟩ := by
  unfold txOf
  rw [initCmd_carrier]

/-- Settles O44: eleven commands are the same; of the other four, two differ in the orientation's opcode byte and two
in an operand byte that a legal preset changes. -/
theorem presetChangesFourTransmissions : Obligations.PresetChangesFourTransmissions := by
  intro dflt pc pv k hseg hcom ⟨hcontrast, hvcomh⟩
  constructor
  · intro h hk
    rw [txOf_initCmd, txOf_initCmd, Tx.mk.injEq] at h
    obtain ⟨-, h⟩ := h
    simp only [List.mem_cons, List.not_mem_nil, or_false] at hk
    rcases hk with rfl | rfl | rfl | rfl
    · have hb : [segmentRemapByte standardTable .remapped] =
          [segmentRemapByte standardTable dflt.segmentRemap] := h
      rw [hseg] at hb
      exact absurd hb (by decide)
    · have hb : [comScanByte standardTable .remapped] =
          [comScanByte standardTable dflt.comScan] := h
      rw [hcom] at hb
      exact absurd hb (by decide)
    · have hb : [standardTable.contrast, pc] = [standardTable.contrast, dflt.contrast] := h
      obtain rfl : pc = dflt.contrast := by simpa using hb
      exact absurd hcontrast (Nat.lt_irrefl _)
    · have hb : [standardTable.vcomh, pv] = [standardTable.vcomh, dflt.vcomh] := h
      exact hvcomh (by simpa using hb)
  · intro hk
    rw [initCmd_presetConfig_of_not_mem dflt pc pv hk]

/-! ### The order of the positions (R145, R193) -/

/-- Settles O18, position by position from the definition of `Next`. -/
theorem positionsFollowInOrder : Obligations.PositionsFollowInOrder :=
  ⟨fun _ h => dif_pos h, fun _ _ => ⟨rfl, rfl, rfl, fun h => dif_pos h⟩, rfl, fun _ => rfl,
    fun s _ hs => s.finish_init hs⟩

/-! ### SET_CONFIG (R140) -/

/-- Settles O31: an accept step that ends where it began, in `Idle`. -/
theorem setConfigReplacesTheConfiguration : Obligations.SetConfigReplacesTheConfiguration := by
  intro s c hi
  have hexec : exec (.setConfig c) s = .next ({ s with cfg := c }.finishWith (.setConfig c) .ok) :=
    acceptWhenIdle_idle hi _
  rw [hexec, hi]
  rfl

/-! ### What INITIALIZE leaves alone (R150) -/

/-- A response writes FB by `Finish` only (R34, R196). -/
theorem settle_fb (s : State) (req : Instr) (resp : Response) :
    (s.settle req resp).fb = s.fb ∨ (s.settle req resp).fb = s.finish.fb := by
  cases resp with
  | err e => exact .inl rfl
  | ok =>
    cases hl : s.seq.isLast
    · rw [settle_ok_not_last hl]; exact .inl rfl
    · rw [settle_ok_last hl]; exact .inr rfl

/-- A step of INITIALIZE waits, or it emits and settles; `Finish` does nothing then (R145). -/
theorem step_init_frame {k : Fin 15} (hq : s.seq = .init k) (h : step s = .next t) :
    t.fb = s.fb ∧ t.cfg = s.cfg ∧ t.params = s.params ∧ t.requests = s.requests := by
  rcases step_cases h with ⟨rfl, -⟩ | ⟨_, _, _, hi, -⟩ | ⟨i, req, resp, later, -, -, -, rfl⟩
  · exact ⟨rfl, rfl, rfl, rfl⟩
  · rw [hq] at hi; cases hi
  · obtain ⟨hcfg, hreq, -, hpar⟩ :=
      settle_frame (s.emit (txOf s.params.cmdTable i) resp later) req resp
    refine ⟨?_, hcfg, hpar, hreq⟩
    rcases settle_fb (s.emit (txOf s.params.cmdTable i) resp later) req resp with hfb | hfb
    · exact hfb
    · rw [hfb, finish_emit, s.finish_init hq, State.emit_fb]

/-- An idle block accepts every request that decodes, and takes it from the port (R33, R150). -/
theorem step_accepts_decoded {r : PortRequest} {q : List PortRequest} {i : Instr}
    (hi : s.seq = .idle) (hr : s.requests = r :: q) (hd : decodeRequest r = .ok i) :
    ∃ t, step s = .next t ∧ t.requests = q := by
  obtain ⟨hc, hw⟩ := decodeRequest_carrier hd
  obtain ⟨t, ht⟩ := exec_request_next_of_idle (s := s.withRequests q) hc hw hi
  obtain ⟨hreq, -⟩ := exec_request_frame hc hw ht
  exact ⟨t, (step_idle_request hi hr hd).trans ht, hreq⟩

/-- Settles O52: the frame of a step of INITIALIZE, and the acceptance of whatever decodes. -/
theorem initializeChangesOnlySeq : Obligations.InitializeChangesOnlySeq :=
  ⟨fun _ _ _ hq h => step_init_frame hq h, fun _ _ _ _ hi hr hd => step_accepts_decoded hi hr hd⟩

end Sys2Proof.Machine
end

section
/-! SUPPORT. The requests that write the framebuffer settled: SET_PIXEL (R170 to R174) and REPLACE_FROM_RAW (R175). -/

namespace Sys2Proof.Machine

variable {s t : State}

/-! ### State rules -/

/-- A request that completes in its accept step ends where it began: only its result is new (R33). -/
theorem State.finishWith_of_idle (hi : s.seq = .idle) (req : Instr) (res : Result) :
    s.finishWith req res = { s with record := s.record ++ [.result req res] } := by
  rw [State.finishWith, ← hi]

@[simp] theorem State.transcript_finishWith (req : Instr) (res : Result) :
    (s.finishWith req res).transcript = s.transcript := by
  simp [State.transcript]

@[simp] theorem State.transcript_fbWrite (p : Fin 8) (c : Fin 128) (v : Byte) :
    (s.fbWrite p c v).transcript = s.transcript := rfl

@[simp] theorem State.pixel_finishWith (req : Instr) (res : Result) (w : PixelPlace) :
    (s.finishWith req res).pixel w = s.pixel w := rfl

/-- Writing back the byte that stands there changes nothing: the canonical form has one list per framebuffer. -/
theorem Memory.write_read_self {m : Memory} (h : m.wf = true) {a : Nat} (ha : a < fbBytes) :
    m.write a (m.read a) = m := by
  refine Memory.eq_of_wf (Memory.wf_write h ha _) h fun a' => ?_
  rw [Memory.read_write h]
  by_cases e : a' = a
  · rw [if_pos e, e]
  · rw [if_neg e]

/-- `FB[p][c] <- FB[p][c]` leaves FB as it was. -/
theorem State.fbWrite_fbRead_self (h : s.fb.wf = true) (p : Fin 8) (c : Fin 128) :
    (s.fbWrite p c (s.fbRead p c)).fb = s.fb :=
  Memory.write_read_self h (linearIndex_lt p c)

/-! ### SET_PIXEL in `Idle` -/

variable {x y : Int} {on : Bool}

/-- SET_PIXEL in `Idle` on a visible pixel: the byte of its place is rewritten and `Ok` recorded (R172, R173). -/
theorem exec_setPixel_inRange (hi : s.seq = .idle) (hr : InRange x y) :
    ∃ w : PixelPlace, (w.page.val : Int) = y / 8 ∧ (w.column.val : Int) = x ∧ (w.bit.val : Int) = y % 8 ∧
      exec (.setPixel x y on) s =
        .next { s.fbWrite w.page w.column
                  (pixelByte s.params.pixelOff on w.bit (s.fbRead w.page w.column)) with
                record := s.record ++ [.result (.setPixel x y on) .ok] } := by
  obtain ⟨w, hw, hpage, hcolumn, hbit⟩ := translatePixel_of_inRange hr
  refine ⟨w, hpage, hcolumn, hbit, (acceptWhenIdle_idle hi _).trans ?_⟩
  rw [setPixelEffect, hw]
  exact congrArg _ (State.finishWith_of_idle (s := s.fbWrite w.page w.column _) hi _ _)

/-- SET_PIXEL in `Idle` off the display: the violation recorded, nothing written (R171). -/
theorem exec_setPixel_of_not_inRange (hi : s.seq = .idle) (hr : ¬ InRange x y) :
    exec (.setPixel x y on) s =
      .next { s with record := s.record ++ [.result (.setPixel x y on) (.boundaryViolation x y)] } := by
  refine (acceptWhenIdle_idle hi _).trans ?_
  rw [setPixelEffect, translatePixel_of_not_inRange hr]
  exact congrArg _ (State.finishWith_of_idle hi _ _)

/-- Settles O35: one coordinate past its bound puts the pixel out of range. -/
theorem setPixelOutOfRangeIsReported : Obligations.SetPixelOutOfRangeIsReported := by
  intro s x y on hi hout
  have hr : ¬ InRange x y := by rintro ⟨hx0, hx1, hy0, hy1⟩; omega
  exact exec_setPixel_of_not_inRange hi hr

/-- Settles O33: the write of the ORed byte, read back at its own place and at every other one. -/
theorem setPixelOnSetsTheBit : Obligations.SetPixelOnSetsTheBit := by
  intro s x y hwf hi hr
  obtain ⟨w, hpage, hcolumn, hbit, hexec⟩ := exec_setPixel_inRange (on := true) hi hr
  have hpixel := State.pixel_setPixel hwf s.params.pixelOff true w
  refine ⟨_, w, hexec, hpage, hcolumn, hbit, ?_, ?_, fun w' hne => ?_, rfl⟩
  · exact (State.fbRead_fbWrite hwf ..).trans (if_pos ⟨rfl, rfl⟩)
  · exact (hpixel w).trans (if_pos rfl)
  · exact (hpixel w').trans (if_neg hne)

/-- Settles O34: under `Clear` the pixel reads back as off and the others as they were; under `Ignore` the byte written
is the byte that stood there. -/
theorem setPixelOffFollowsThePolicy : Obligations.SetPixelOffFollowsThePolicy := by
  intro s x y hwf hi hr
  obtain ⟨w, hpage, hcolumn, hbit, hexec⟩ := exec_setPixel_inRange (on := false) hi hr
  refine ⟨_, w, hexec, hpage, hcolumn, hbit, fun hclear => ?_, fun hignore => ?_, rfl⟩
  · rw [hclear]
    have hpixel := State.pixel_setPixel hwf .clear false w
    exact ⟨(hpixel w).trans (if_pos rfl), fun w' hne => (hpixel w').trans (if_neg hne)⟩
  · rw [hignore]
    exact State.fbWrite_fbRead_self hwf w.page w.column

/-! ### What SET_PIXEL leaves alone (R174) -/

/-- SET_PIXEL's effect neither reads nor writes CFG. -/
theorem setPixelEffect_withCfg (x y : Int) (on : Bool) (s : State) (c : Cfg) :
    setPixelEffect x y on (s.withCfg c) = (setPixelEffect x y on s).withCfg c := by
  unfold setPixelEffect
  cases translatePixel x y with
  | none => rfl
  | some w => rfl

/-- SET_PIXEL's effect changes no pixel but the one at its coordinate, if there is one. -/
theorem pixel_setPixelEffect_of_ne (hwf : s.fb.wf = true) {w : PixelPlace}
    (hne : ¬ (w.x = x ∧ w.y = y)) : (setPixelEffect x y on s).pixel w = s.pixel w := by
  rcases setPixelEffect_cases x y on s with ⟨_, w', hw', he⟩ | ⟨_, he⟩
  · have hww' : w ≠ w' := by rintro rfl; exact hne (translatePixel_eq_some_iff.mp hw')
    rw [he, State.pixel_finishWith, State.pixel_setPixel hwf, if_neg hww']
  · rw [he, State.pixel_finishWith]

/-- SET_PIXEL's effect leaves CFG as it was, transmits nothing and ends in `Idle`. -/
theorem setPixelEffect_frame (x y : Int) (on : Bool) (s : State) :
    (setPixelEffect x y on s).cfg = s.cfg ∧ (setPixelEffect x y on s).seq = .idle ∧
      (setPixelEffect x y on s).transcript = s.transcript := by
  rcases setPixelEffect_cases x y on s with ⟨_, w, _, he⟩ | ⟨_, he⟩ <;> rw [he] <;> simp

/-- Settles O36: SET_PIXEL answers only in `Idle`, and its effect has this frame in both of its cases. -/
theorem setPixelChangesOneBitAtMost : Obligations.SetPixelChangesOneBitAtMost := by
  intro s t x y on hwf h
  obtain ⟨hi, he⟩ := acceptWhenIdle_next h
  obtain rfl : setPixelEffect x y on s = t := Host.Outcome.next.inj he
  obtain ⟨hcfg, hseq, htranscript⟩ := setPixelEffect_frame x y on s
  refine ⟨fun w hne => pixel_setPixelEffect_of_ne hwf hne, hcfg, hseq.trans hi.symm, htranscript,
    fun c => ?_⟩
  rw [← setPixelEffect_withCfg]
  exact acceptWhenIdle_idle (s := s.withCfg c) hi _

/-! ### REPLACE_FROM_RAW (R175) -/

/-- A well-shaped grid has a byte at every page and column, the one its flat form has at their linear index. -/
theorem getElem?_grid {pages : List (List Byte)} (h : gridShape pages = true) (p : Fin 8)
    (c : Fin 128) : pages[p.val]?.bind (·[c.val]?) =
      some ((flatGrid pages).getD (linearIndex p c) 0#8) := by
  rw [getD_flatGrid h]
  simp only [gridShape, Bool.and_eq_true, beq_iff_eq, List.all_eq_true] at h
  obtain ⟨hpages, hpage⟩ := h
  have hp : p.val < pages.length := by omega
  have hc : c.val < pages[p.val].length := by rw [hpage _ (List.getElem_mem hp)]; exact c.isLt
  simp [hp, hc]

/-- FB after the grid's one write reads, at every page and column, the flat form's byte. -/
theorem read_writeBytes_flatGrid {m : Memory} (hwf : m.wf = true) {pages : List (List Byte)}
    (h : gridShape pages = true) (p : Fin 8) (c : Fin 128) :
    (m.writeBytes 0 (flatGrid pages)).read (linearIndex p c) =
      (flatGrid pages).getD (linearIndex p c) 0#8 := by
  have hlen : 0 + (flatGrid pages).length = fbBytes := by rw [length_flatGrid h]; rfl
  rw [Memory.read_writeBytes hwf _ hlen.le, hlen, if_pos ⟨Nat.zero_le _, linearIndex_lt p c⟩,
    Nat.sub_zero]

/-- REPLACE_FROM_RAW of a well-shaped grid in `Idle`: the flat form written from index 0 on and `Ok` recorded. -/
theorem exec_replaceFromRaw_of_shape (hi : s.seq = .idle) {pages : List (List Byte)}
    (h : gridShape pages = true) :
    exec (.replaceFromRaw pages) s =
      .next { s with
              fb := s.fb.writeBytes 0 (flatGrid pages)
              record := s.record ++ [.result (.replaceFromRaw pages) .ok] } := by
  refine (acceptWhenIdle_idle hi _).trans ((replaceEffect_of_shape h s).trans ?_)
  exact congrArg _
    (State.finishWith_of_idle (s := s.withFb (s.fb.writeBytes 0 (flatGrid pages))) hi _ _)

/-- Settles O37: the flat form is written whole, and both sides read its byte at the linear index. -/
theorem replaceFromRawReadsBack : Obligations.ReplaceFromRawReadsBack := by
  intro s pages hwf hi hshape
  refine ⟨_, exec_replaceFromRaw_of_shape hi hshape, fun p c => ?_, rfl⟩
  exact (getElem?_grid hshape p c).trans
    (congrArg some (read_writeBytes_flatGrid hwf hshape p c).symm)

end Sys2Proof.Machine
end

section
/-! SUPPORT. The page transfers settled: what each flush position transmits (R192, R55), then FLUSH and CLEAR_SCREEN as
one function of the transport's responses (R190, R195, R197). -/

namespace Sys2Proof.Machine

variable {s : State}

/-! ### What a flush position transmits (R192) -/

/-- MemRead's byte number `k` is the byte at the `k`-th index from the start (R51). -/
theorem Memory.getElem?_readBytes (m : Memory) (a : Nat) {n k : Nat} (hk : k < n) :
    (m.readBytes a n)[k]? = some (m.read (a + k)) := by
  have hlen : k < (m.readBytes a n).length := by rwa [Memory.length_readBytes]
  rw [List.getElem?_eq_getElem hlen, ← List.getD_eq_getElem _ 0#8 hlen,
    Memory.getD_readBytes m a hk]

/-- A page of FB goes out with the byte of column `c` at place `c` (R55). -/
theorem getElem?_pageBytes_buf (s : State) (p : Fin 8) (c : Fin 128) :
    (pageBytes .buf p s.fb)[c.val]? = some (s.fbRead p c) :=
  Memory.getElem?_readBytes s.fb (128 * p.val) c.isLt

/-- Settles O19: the command bytes are those of column 0 and of the page, and no byte of the command table is looked
at; the bytes of a page are the laws of MemRead. -/
theorem flushPositionsTransmit : Obligations.FlushPositionsTransmit :=
  fun _ s _ p => ⟨rfl, rfl, rfl, rfl, rfl, length_pageBytes .buf p s.fb, getElem?_pageBytes_buf s p⟩

/-! ### The run of a flush, whichever request it serves -/

section flushRun
variable {src : Src} {req : Instr} {q : List PortRequest} {later : List Response}

/-- The accept step, then thirty-two transmissions answered `Ok`: FB is cleared for FLUSH only (R190, R196, R197). -/
theorem runSteps_flush_ok (hi : s.seq = .idle) (ho : (flushStart src).owner = some req)
    (hstep : step s = .next { s with seq := flushStart src, requests := q })
    (hr : s.responses = List.replicate 32 .ok ++ later) :
    runSteps 33 s = .next
      { s with
        fb := if req = .flush ∧ s.params.clearAfterFlush then [] else s.fb
        requests := q
        responses := later
        record := s.record ++ okEvents s.params.cmdTable (flushProgram src s.fb) ++
          [.result req .ok] } := by
  have hrun := runSteps_sequence_ok (n := 31) (s := { s with seq := flushStart src, requests := q })
    ho rfl rfl hr
  rw [runSteps_of_next hstep, hrun, State.finish_fb, hi]
  simp only [ho, Option.some.injEq]
  rfl

/-- The accept step, then a first `Err(e)` at phase `ph` of page `p`: FB is left alone (R195, R224). -/
theorem runSteps_flush_err {p : Fin 8} {ph : PagePhase} {e : TransportError} (hi : s.seq = .idle)
    (ho : (flushStart src).owner = some req)
    (hstep : step s = .next { s with seq := flushStart src, requests := q })
    (hr : s.responses = List.replicate (4 * p.val + ph.index) .ok ++ .err e :: later) :
    runSteps (4 * p.val + ph.index + 2) s = .next
      { s with
        requests := q
        responses := later
        record := s.record ++
          okEvents s.params.cmdTable ((flushProgram src s.fb).take (4 * p.val + ph.index)) ++
          [ .tx (txOf s.params.cmdTable (flushInstr src p ph s.fb)) (.err e),
            .result req (.transportFailure e) ] } := by
  have hposition := Seq.getElem?_program (q := .flush src p ph) (c := s.cfg) (fb := s.fb) rfl
  have hrun := runSteps_sequence_err (s := { s with seq := flushStart src, requests := q }) ho rfl
    hposition hr
  rw [runSteps_of_next hstep, hi]
  exact hrun

end flushRun

/-! ### FLUSH (R190, R195) and CLEAR_SCREEN (R197) -/

/-- FLUSH at the port of an idle block is accepted (R33). -/
theorem step_flush {q : List PortRequest} (hi : s.seq = .idle) (hr : s.requests = ⟨4, .none⟩ :: q) :
    step s = .next { s with seq := flushStart .buf, requests := q } :=
  (step_idle_request hi hr rfl).trans (acceptWhenIdle_idle hi _)

/-- CLEAR_SCREEN at the port of an idle block is accepted (R33). -/
theorem step_clearScreen {q : List PortRequest} (hi : s.seq = .idle)
    (hr : s.requests = ⟨5, .none⟩ :: q) :
    step s = .next { s with seq := flushStart .zero, requests := q } :=
  (step_idle_request hi hr rfl).trans (acceptWhenIdle_idle hi _)

/-- Settles O41: a flush from FB, whose `Finish` clears FB exactly when the parameter says so. -/
theorem flushSendsEightPages : Obligations.FlushSendsEightPages := by
  intro s q hi hreq
  have hstep := step_flush hi hreq
  refine ⟨fun later hr => ?_, fun p ph e later hr => runSteps_flush_err hi rfl hstep hr⟩
  simpa only [true_and] using runSteps_flush_ok hi rfl hstep hr

/-- Settles O42: a flush of zero pages, whose `Finish` does nothing, as the request is not FLUSH. -/
theorem clearScreenSendsEightZeroPages : Obligations.ClearScreenSendsEightZeroPages := by
  intro s q hi hreq
  have hstep := step_clearScreen hi hreq
  refine ⟨fun later hr => ?_, fun p ph e later hr => runSteps_flush_err hi rfl hstep hr⟩
  simpa only [reduceCtorEq, false_and, if_false] using runSteps_flush_ok hi rfl hstep hr

end Sys2Proof.Machine
end

section
/-! SUPPORT. The round trips of the encoder and the decoder settled, over all rows (R74, R75, R84, R85, R80). -/

namespace Sys2Proof

/-! ### Decoding the encoded form -/

/-- The bits SET_START_LINE keeps of its line, as a number (R105). -/
theorem toNat_and_0x3F (l : Byte) : (l &&& 0x3F).toNat = l.toNat % 64 := by
  rw [BitVec.toNat_and]
  exact Nat.and_two_pow_sub_one_eq_mod l.toNat 6

open Laws.EncodingRoundTrip in
/-- The decoder undoes the encoder on every row. -/
theorem decode_encode : ∀ {i : Instr}, i.wellFormed = true → decode (encode i) = .ok i.canonical
  | .displayOff => displayOff
  | .setClockDiv v => setClockDiv v
  | .setMuxRatio v => setMuxRatio v
  | .setDisplayOffset v => setDisplayOffset v
  | .setStartLine l => setStartLine l
  | .setSegmentRemap r => setSegmentRemap r
  | .setComScan r => setComScan r
  | .setComPins v => setComPins v
  | .setContrast v => setContrast v
  | .setPrecharge v => setPrecharge v
  | .setVcomh v => setVcomh v
  | .entireDisplayResume => entireDisplayResume
  | .setDisplayMode m => setDisplayMode m
  | .setChargePump m => setChargePump m
  | .displayOn => displayOn
  | .setPage p => setPage p
  | .setColLow c => setColLow c
  | .setColHigh c => setColHigh c
  | .pageData d => pageData d
  | .setPixel x y on => setPixel x y on
  | .replaceFromRaw pages => replaceFromRaw pages
  | .setConfig c => setConfig c
  | .runInit => runInit
  | .flush => flush
  | .clearScreen => clearScreen

/-- The encoder does not see the operand bits that the canonical form sets to zero (R105, R117, R118). -/
theorem encode_canonical (i : Instr) : encode i.canonical = encode i := by
  cases i with
  | setStartLine l =>
    have h : startLineByte standardTable (l &&& 0x3F) = startLineByte standardTable l := by
      rw [startLineByte, BitVec.and_assoc, BitVec.and_self]; rfl
    exact congrArg (fun b => Code.command [b]) h
  | setColLow c =>
    have h : colLowByte ⟨c.val % 16, by omega⟩ = colLowByte c :=
      BitVec.eq_of_toNat_eq (by rw [toNat_colLowByte, toNat_colLowByte, Nat.mod_mod])
    exact congrArg (fun b => Code.command [b]) h
  | setColHigh c =>
    have h : colHighByte ⟨16 * (c.val / 16), by omega⟩ = colHighByte c :=
      BitVec.eq_of_toNat_eq (by rw [toNat_colHighByte, toNat_colHighByte]; dsimp only; omega)
    exact congrArg (fun b => Code.command [b]) h
  | _ => rfl

/-- With the dropped operand bits zero an instruction is its own canonical form. -/
theorem canonical_eq_self {i : Instr} (hline : ∀ l, i = .setStartLine l → l.toNat < 64)
    (hlow : ∀ c, i = .setColLow c → c.val < 16) (hhigh : ∀ c, i = .setColHigh c → c.val % 16 = 0) :
    i.canonical = i := by
  cases i with
  | setStartLine l =>
    have h := hline l rfl
    exact congrArg Instr.setStartLine
      (BitVec.eq_of_toNat_eq (by rw [toNat_and_0x3F, Nat.mod_eq_of_lt h]))
  | setColLow c => exact congrArg Instr.setColLow (Fin.ext (Nat.mod_eq_of_lt (hlow c rfl)))
  | setColHigh c =>
    have h := hhigh c rfl
    exact congrArg Instr.setColHigh (Fin.ext (by dsimp only; omega))
  | _ => rfl

/-- Settles O7: the round trip of each row, and what the encoding drops. -/
theorem decodeUndoesEncode : Obligations.DecodeUndoesEncode :=
  fun i hw => ⟨decode_encode hw, encode_canonical i, canonical_eq_self⟩

/-- Every data-phase transmission of 128 bytes is a page (R73). -/
theorem decode_data {bytes : List Byte} (h : bytes.length = 128) :
    decode (.data bytes) = .ok (.pageData bytes) := if_pos h

/-- Settles O1: one word or more of each family, run through the decoder. -/
theorem sampleWordsDecode : Obligations.SampleWordsDecode :=
  ⟨rfl, rfl, rfl, rfl, rfl, rfl, rfl, decode_data List.length_replicate, rfl, rfl⟩

/-! ### Encoding the decoded instruction -/

/-- The decoder answers an instruction of the row that byte 0 matches. -/
theorem row_of_decodeFields {row : Row} {b v : Byte} {i : Instr}
    (h : decodeFields row b v = .ok i) : i.row = row := by
  cases row with
  | setChargePump =>
    change decodeChargePump v = _ at h
    unfold decodeChargePump at h
    split_ifs at h <;> cases h <;> rfl
  | setColHigh =>
    change decodeColHigh b = _ at h
    unfold decodeColHigh at h
    split at h <;> cases h
    rfl
  | pageData | setPixel | replaceFromRaw | setConfig | runInit | flush | clearScreen => cases h
  | _ => cases h; rfl

/-- The operand byte of SET_CHARGE_PUMP is that of the choice it decodes to (R75). -/
theorem commandBytes_of_decodeChargePump {v : Byte} {i : Instr} (h : decodeChargePump v = .ok i) :
    commandBytes standardTable i = [0x8D, v] := by
  unfold decodeChargePump at h
  split_ifs at h with h0 h1 h2 h3 <;> cases h
  · subst h0; rfl
  · subst h1; rfl
  · subst h2; rfl
  · subst h3; rfl

/-- The nibble of SET_COL_HIGH is that of the column it decodes to (R118). -/
theorem commandBytes_of_decodeColHigh {b : Byte} {i : Instr} (ha : b &&& 0xF0 = 0x10)
    (h : decodeColHigh b = .ok i) : commandBytes standardTable i = [b] := by
  have hb : b.toNat = 0x10 + b.toNat % 16 := by
    clear h; revert b; decide +kernel
  unfold decodeColHigh at h
  split at h <;> cases h
  refine congrArg (fun b => [b]) (BitVec.eq_of_toNat_eq ?_)
  rw [toNat_colHighByte]
  dsimp only
  omega

/-- The bytes of the instruction that a row's fields decode to are those the fields were taken from: the mask and the
match tell every bit of byte 0 outside the field (R74, R75, R84). -/
theorem commandBytes_of_decodeFields {row : Row} {m k b v : Byte} {n : Nat} {i : Instr}
    (hr : ⟨row, m, k, n⟩ ∈ opRows) (ha : b &&& k = m) (hd : decodeFields row b v = .ok i) :
    commandBytes standardTable i = [b, v].take n := by
  cases row with
  | displayOff | setClockDiv | setMuxRatio | setDisplayOffset | setComPins | setContrast | setPrecharge
  | setVcomh | entireDisplayResume | displayOn =>
    obtain ⟨rfl, rfl, rfl⟩ : _ ∧ k = 0xFF ∧ _ := by simpa [opRows] using hr
    obtain rfl := BitVec.and_allOnes.symm.trans ha
    cases hd
    rfl
  | setChargePump =>
    obtain ⟨rfl, rfl, rfl⟩ : _ ∧ k = 0xFF ∧ _ := by simpa [opRows] using hr
    obtain rfl := BitVec.and_allOnes.symm.trans ha
    exact commandBytes_of_decodeChargePump hd
  | setColHigh =>
    obtain ⟨rfl, rfl, rfl⟩ : _ ∧ k = 0xF0 ∧ _ := by simpa [opRows] using hr
    exact commandBytes_of_decodeColHigh ha hd
  | setStartLine | setSegmentRemap | setComScan | setDisplayMode | setPage | setColLow =>
    obtain ⟨rfl, rfl, rfl⟩ : m = _ ∧ k = _ ∧ _ := by simpa [opRows] using hr
    cases hd
    show _ = [b]
    revert b
    decide +kernel
  | _ => cases hd

/-- A register command is well-formed and its encoded form is `Enc` of it (R71, R100). -/
theorem encode_of_command {i : Instr} (h : i.carrier = .command) :
    encode i = .command (commandBytes standardTable i) ∧ i.wellFormed = true := by
  cases i with
  | pageData | setPixel | replaceFromRaw | setConfig | runInit | flush | clearScreen => cases h
  | _ => exact ⟨rfl, rfl⟩

/-- The rows of the opcode map are the register commands, of one byte or two (R84, R121). -/
theorem carrier_and_len_of_mem_opRows :
    ∀ r ∈ opRows, r.row.carrier = .command ∧ (r.len = 1 ∨ r.len = 2) := by
  decide

/-- What the decoder has checked of a transmission that it takes: byte 0 matches a row, the length is the row's, and the
fields decode (R85, R86). -/
theorem decodeCommand_ok {bytes : List Byte} {i : Instr} (h : decodeCommand bytes = .ok i) :
    ∃ (b : Byte) (rest : List Byte) (r : OpRow), bytes = b :: rest ∧ r ∈ opRows ∧ r.accepts b = true ∧
      rest.length + 1 = r.len ∧ decodeFields r.row b (rest.headD 0) = .ok i := by
  cases bytes with
  | nil => cases h
  | cons b rest =>
    cases hrow : opRowOf b with
    | none => simp [decodeCommand, hrow] at h
    | some r =>
      have hacc : r.accepts b = true := List.find?_some (p := fun r => OpRow.accepts r b) hrow
      simp only [decodeCommand, hrow] at h
      split at h
      · exact ⟨b, rest, r, rfl, List.mem_of_find?_eq_some hrow, hacc, ‹_›, h⟩
      · cases h

/-- A transmission that decodes is the encoding of what it decodes to (R85). -/
theorem encode_of_decodeCommand {bytes : List Byte} {i : Instr} (h : decodeCommand bytes = .ok i) :
    encode i = .command bytes ∧ i.wellFormed = true := by
  obtain ⟨b, rest, r, rfl, hmem, hacc, hlen, hd⟩ := decodeCommand_ok h
  obtain ⟨hcarrier, hone | htwo⟩ := carrier_and_len_of_mem_opRows r hmem
  all_goals
    rw [← row_of_decodeFields hd] at hcarrier
    obtain ⟨henc, hw⟩ := encode_of_command hcarrier
    rw [henc, commandBytes_of_decodeFields hmem (beq_iff_eq.mp hacc) hd]
    refine ⟨congrArg Code.command ?_, hw⟩
  · obtain rfl : rest = [] := List.length_eq_zero_iff.mp (by omega)
    rw [hone]; rfl
  · obtain ⟨v, rfl⟩ := List.length_eq_one_iff.mp (by omega : rest.length = 1)
    rw [htwo]; rfl

/-- An encoded form that decodes is the encoding of a well-formed instruction, the one it decodes to. -/
theorem encode_of_decode {c : Code} {i : Instr} (h : decode c = .ok i) :
    encode i = c ∧ i.wellFormed = true := by
  cases c with
  | request r => exact ⟨encode_of_decodeRequest h, (Machine.decodeRequest_carrier h).2⟩
  | command bytes => exact encode_of_decodeCommand h
  | data bytes =>
    change (if bytes.length = 128 then Except.ok (Instr.pageData bytes) else _) = _ at h
    split at h <;> cases h
    exact ⟨rfl, beq_iff_eq.mpr ‹_›⟩

/-- Settles O8: the encoding is the form itself; then the two answers of the decoder on it, the instruction and its
canonical form, are one. -/
theorem encodeUndoesDecode : Obligations.EncodeUndoesDecode := by
  intro c i h
  obtain ⟨henc, hw⟩ := encode_of_decode h
  have hcanonical := decode_encode hw
  rw [henc, h] at hcanonical
  exact ⟨henc, hw, (Except.ok.inj hcanonical).symm⟩

end Sys2Proof
end

section
/-! SUPPORT. The invariant settled: every operation of the block keeps FB canonical, the record legal and the sequence
coherent (R31, R147, R191, R221), and the reset state meets it. -/

namespace Sys2Proof.Machine

variable {s t : State}

/-! ### The record -/

/-- A transmission of a legal shape keeps the record legal. -/
theorem State.recordLegal_emit (h : s.recordLegal) {tx : Tx} (htx : tx.legal) (resp : Response)
    (later : List Response) : (s.emit tx resp later).recordLegal :=
  List.forall_mem_append.mpr ⟨h, List.forall_mem_singleton.mpr htx⟩

/-- A result that its request can yield keeps the record legal. -/
theorem State.recordLegal_finishWith (h : s.recordLegal) {req : Instr} {res : Result}
    (hres : resultLegal req res) : (s.finishWith req res).recordLegal :=
  List.forall_mem_append.mpr ⟨h, List.forall_mem_singleton.mpr hres⟩

/-- `Finish` keeps FB canonical: it leaves FB or clears it (R196). -/
theorem State.wf_finish (h : s.fb.wf = true) : s.finish.fb.wf = true := by
  rcases s.finish_eq_self_or_clearFb with hf | hf
  · rwa [hf]
  · rw [hf]; rfl

/-! ### Coherence at the two ends of a request -/

/-- At the start of a sequence nothing has been sent (R33, R147). -/
theorem State.coherent_iff_of_number_zero (h : s.seq.number = 0) :
    s.coherent ↔ openTransmissions s.record = [] := by
  rw [State.coherent, h]
  rfl

/-- Ending a request with a result it can yield: the block is idle and nothing is in progress (R32). -/
theorem State.inv_finishWith (hwf : s.fb.wf = true) (hl : s.recordLegal) {req : Instr} {res : Result}
    (hres : resultLegal req res) : (s.finishWith req res).Inv where
  canonical := hwf
  legal := State.recordLegal_finishWith hl hres
  coherent := (State.coherent_iff_of_number_zero rfl).mpr (openTransmissions_append_result ..)

/-- Starting a sequence from `Idle` (R33). -/
theorem State.Inv.start (h : s.Inv) (hi : s.seq = .idle) {q : Seq} (hq : q.number = 0) :
    { s with seq := q }.Inv where
  canonical := h.canonical
  legal := h.legal
  coherent := (State.coherent_iff_of_number_zero hq).mpr
    ((State.coherent_iff_of_number_zero (s := s) (by rw [hi]; rfl)).mp h.coherent)

/-! ### Accepted requests -/

/-- An accepted request keeps the invariant (R33, R221). -/
theorem State.Inv.exec_request (h : s.Inv) {i : Instr} (hc : i.carrier = .request)
    (hw : i.wellFormed = true) (he : exec i s = .next t) : t.Inv := by
  obtain ⟨hi, hcases⟩ := exec_request_cases hc hw he
  rcases hcases with ⟨x, y, on, rfl, rfl⟩ | ⟨pages, rfl, hshape, rfl⟩ | ⟨c, rfl, rfl⟩ | ⟨rfl, rfl⟩ |
    ⟨rfl, rfl⟩ | ⟨rfl, rfl⟩
  · rcases setPixelEffect_cases x y on s with ⟨hr, w, -, he⟩ | ⟨hr, he⟩ <;> rw [he]
    · exact State.inv_finishWith (State.wf_fbWrite h.canonical ..) h.legal hr
    · exact State.inv_finishWith h.canonical h.legal ⟨rfl, rfl, hr⟩
  · exact State.inv_finishWith (s := s.withFb _)
      (Memory.wf_writeBytes h.canonical _ ((Nat.zero_add _).trans (length_flatGrid hshape)).le) h.legal rfl
  · exact State.inv_finishWith (s := s.withCfg c) h.canonical h.legal
      (show resultLegal (.setConfig c) .ok from rfl)
  · exact h.start hi rfl
  · exact h.start hi rfl
  · exact h.start hi rfl

/-! ### The transmit step -/

/-- One more transmission of the sequence, answered `Ok`. -/
theorem sentOk_take_succ (tbl : CmdTable) {is : List Instr} {n : Nat} {i : Instr} (h : is[n]? = some i) :
    sentOk tbl (is.take (n + 1)) = sentOk tbl (is.take n) ++ [(txOf tbl i, .ok)] := by
  simp [sentOk, List.take_add_one, h]

/-- Moving to the next position after an `Ok` keeps the invariant: what is sent grows by the instruction of the
position, as the sequence up to the next one does (R145, R193). -/
theorem State.Inv.afterOk_next (h : s.Inv) {i : Instr} (hinstr : s.seq.instr s.cfg s.fb = some i)
    (hlast : s.seq.isLast = false) (later : List Response) :
    (s.afterOk (txOf s.params.cmdTable i) later s.seq.next).Inv where
  canonical := h.canonical
  legal := State.recordLegal_emit h.legal (Seq.legal_txOf _ hinstr) .ok later
  coherent := by
    have hbusy : s.seq ≠ .idle := by intro hi; rw [hi] at hinstr; cases hinstr
    obtain ⟨-, -, hnumber⟩ := Seq.next_of_not_last hlast hbusy
    have hsent : openTransmissions s.record = _ := h.coherent
    show openTransmissions (s.record ++ [.tx _ .ok]) =
      sentOk s.params.cmdTable ((s.seq.next.program s.cfg s.fb).take s.seq.next.number)
    rw [openTransmissions_append_tx, Seq.program_next hlast, hnumber,
      sentOk_take_succ _ (Seq.getElem?_program hinstr), hsent]

/-- A transmission with its response keeps the invariant (R34). -/
theorem State.Inv.settle_emit (h : s.Inv) {i req : Instr} (hinstr : s.seq.instr s.cfg s.fb = some i)
    (howner : s.seq.owner = some req) (resp : Response) (later : List Response) :
    ((s.emit (txOf s.params.cmdTable i) resp later).settle req resp).Inv := by
  have hlegal := State.recordLegal_emit h.legal (Seq.legal_txOf s.params.cmdTable hinstr) resp later
  cases resp with
  | err e =>
    exact State.inv_finishWith (s := s.emit _ _ later) h.canonical hlegal
      (Seq.resultLegal_of_owner howner (.inr ⟨e, rfl⟩))
  | ok =>
    cases hlast : s.seq.isLast
    · rw [settle_emit_ok hlast]
      exact h.afterOk_next hinstr hlast later
    · rw [settle_ok_last (s := s.emit _ _ later) hlast]
      exact State.inv_finishWith (State.wf_finish (s := s.emit _ _ later) h.canonical)
        (by rwa [State.recordLegal, State.finish_record])
        (Seq.resultLegal_of_owner howner (.inl rfl))

/-- Settles O47: the three things a step can do each keep the invariant. -/
theorem stepKeepsTheInvariant : Obligations.StepKeepsTheInvariant := by
  intro s t h hstep
  rcases step_cases hstep with
    ⟨rfl, -⟩ | ⟨r, later, i, -, -, -, hc, hw, he⟩ | ⟨i, req, resp, later, hinstr, howner, -, rfl⟩
  · exact h
  · have hport : (s.withRequests later).Inv := ⟨h.canonical, h.legal, h.coherent⟩
    exact hport.exec_request hc hw he
  · exact h.settle_emit hinstr howner resp later

/-- Settles O46: FB and the record are empty and no sequence has begun. -/
theorem resetMeetsTheInvariant : Obligations.ResetMeetsTheInvariant :=
  fun _ => ⟨rfl, List.forall_mem_nil _, (State.coherent_iff_of_number_zero rfl).mpr rfl⟩

end Sys2Proof.Machine
end

section
/-! SUPPORT. MemWrite and MemRead settled (R51), then the requests that bring back the reset state (R253) and the values
that reset gives CFG (R24). -/

namespace Sys2Proof.Machine

variable {s : State}

/-- MemRead of the range that MemWrite wrote gives its bytes (R51). -/
theorem Memory.readBytes_writeBytes {m : Memory} (h : m.wf = true) {a : Nat} {v : List Byte}
    (ha : a + v.length ≤ fbBytes) : (m.writeBytes a v).readBytes a v.length = v := by
  refine List.ext_getElem (Memory.length_readBytes ..) fun k _ hk => ?_
  rw [← List.getD_eq_getElem _ 0#8, Memory.getD_readBytes _ _ hk, Memory.read_writeBytes h v ha,
    if_pos ⟨by omega, by omega⟩, Nat.add_sub_cancel_left, List.getD_eq_getElem _ _ hk]

/-- Settles O11: in range by the laws of the memory, out of range by the test of both accesses. -/
theorem memWriteThenMemRead : Obligations.MemWriteThenMemRead := by
  intro s a v hwf
  constructor
  · intro ha
    refine ⟨s.withFb (s.fb.writeBytes a v), if_pos ha, ?_, rfl, Memory.wf_writeBytes hwf v ha,
      fun x hx => (Memory.read_writeBytes hwf v ha x).trans (if_neg hx)⟩
    exact (if_pos ha).trans (congrArg Except.ok (Memory.readBytes_writeBytes hwf ha))
  · intro ha
    exact ⟨if_neg (Nat.not_le.mpr ha), if_neg (Nat.not_le.mpr ha)⟩

/-! ### The reset state restored by the host (R253) -/

/-- REPLACE_FROM_RAW at the port of an idle block is accepted (R33, R175). -/
theorem step_replaceFromRaw {pages : List (List Byte)} {q : List PortRequest} (hi : s.seq = .idle)
    (hr : s.requests = ⟨1, .grid pages⟩ :: q) (hshape : gridShape pages = true) :
    step s = .next
      { s with
        fb := s.fb.writeBytes 0 (flatGrid pages)
        requests := q
        record := s.record ++ [.result (.replaceFromRaw pages) .ok] } :=
  (step_idle_request hi hr (if_pos hshape)).trans
    (exec_replaceFromRaw_of_shape (s := s.withRequests q) hi hshape)

/-- SET_CONFIG at the port of an idle block is accepted (R33, R140). -/
theorem step_setConfig {c : Cfg} {q : List PortRequest} (hi : s.seq = .idle)
    (hr : s.requests = ⟨2, .config c⟩ :: q) :
    step s = .next
      { s with cfg := c, requests := q, record := s.record ++ [.result (.setConfig c) .ok] } :=
  (step_idle_request hi hr rfl).trans (setConfigReplacesTheConfiguration (s.withRequests q) c hi)

/-- A grid of zeros has a flat form of zeros (R175). -/
theorem getD_flatGrid_zeros {pages : List (List Byte)} (hz : ∀ page ∈ pages, ∀ b ∈ page, b = 0)
    (n : Nat) : (flatGrid pages).getD n 0#8 = 0#8 := by
  by_cases hn : n < (flatGrid pages).length
  · rw [List.getD_eq_getElem _ _ hn]
    obtain ⟨page, hpage, hb⟩ := List.mem_flatten.mp (List.getElem_mem hn)
    exact hz page hpage _ hb
  · exact List.getD_eq_default _ _ (by omega)

/-- Writing a grid of zeros leaves nothing listed: FB is as after reset (R37). -/
theorem writeBytes_grid_zeros {m : Memory} (hwf : m.wf = true) {pages : List (List Byte)}
    (h : gridShape pages = true) (hz : ∀ page ∈ pages, ∀ b ∈ page, b = 0) :
    m.writeBytes 0 (flatGrid pages) = [] := by
  have hlen : 0 + (flatGrid pages).length = fbBytes := by rw [length_flatGrid h]; rfl
  refine Memory.eq_of_wf (Memory.wf_writeBytes hwf _ hlen.le) rfl fun x => ?_
  rw [Memory.read_writeBytes hwf _ hlen.le, hlen, getD_flatGrid_zeros hz, Memory.read_nil]
  split
  · rfl
  · exact Memory.read_of_ge hwf (by omega)

/-- Settles O14: two accept steps, the first of which leaves FB with nothing listed. -/
theorem hostRestoresTheResetState : Obligations.HostRestoresTheResetState := by
  intro s pages q hi hwf hshape hz hreq
  have hreplace := step_replaceFromRaw hi hreq hshape
  rw [writeBytes_grid_zeros hwf hshape hz] at hreplace
  rw [runSteps_of_next hreplace]
  refine (runSteps_of_next (step_setConfig (by exact hi) (by rfl)) 0).trans ?_
  simp [runSteps_zero, hi, State.resetWith]

/-- Settles O13: the default of every parameter, read off. -/
theorem resetConfigurationIsTheDefaultTable : Obligations.ResetConfigurationIsTheDefaultTable :=
  ⟨rfl, rfl, rfl⟩

end Sys2Proof.Machine
end

section
/-! SUPPORT. Instructions in their place settled: what a transmission answers at a position of its row, for each response
(R34), command by command (R101 to R118, R73, R196, R224), and what `exec` answers elsewhere (R30, R86). -/

namespace Sys2Proof.Machine

variable {s : State}

/-! ### Transmissions in their place -/

/-- The rows of the fixed sequences are commands and pages (R142, R192). -/
theorem Seq.carrier_of_row {q : Seq} {c : Cfg} {r : Row} (h : q.row c = some r) :
    r.carrier ≠ .request := by
  cases q with
  | idle => cases h
  | init k =>
    obtain rfl := Option.some.inj h
    show (initCmd k c).carrier ≠ .request
    rw [initCmd_carrier]
    decide
  | flush src p ph =>
    obtain rfl := Option.some.inj h
    cases ph <;> decide

/-- A position that has a row is busy. -/
theorem Seq.busy_of_row {q : Seq} {c : Cfg} {r : Row} (h : q.row c = some r) : q ≠ .idle := by
  rintro rfl
  cases h

/-- A position with another one after it is not the last. -/
theorem Seq.not_isLast_of_next {q q' : Seq} (h : q.next = q') (hq' : q' ≠ .idle) : q.isLast = false :=
  Bool.eq_false_iff.mpr fun hl => hq' (h.symm.trans (Seq.next_of_isLast hl))

/-- A register command goes out in the command phase, as `Enc` of it (R71). -/
theorem txOf_of_command {i : Instr} (hc : i.carrier = .command) (tbl : CmdTable) :
    txOf tbl i = ⟨.cmd, commandBytes tbl i⟩ := by
  unfold txOf
  rw [hc]

/-- `exec` of a well-formed command or page is its transmission (R120, R73). -/
theorem exec_of_transmission {i : Instr} (hc : i.carrier ≠ .request) (hw : i.wellFormed = true) :
    exec i s = transmitInPlace i s := by
  cases i with
  | pageData d => exact if_pos (beq_iff_eq.mp hw)
  | setPixel | replaceFromRaw | setConfig | runInit | flush | clearScreen => exact absurd rfl hc
  | _ => rfl

section inPlace
variable {i req : Instr} {later : List Response} (hw : i.wellFormed = true)
  (hrow : s.seq.row s.cfg = some i.row)
include hw hrow

/-- At a position of its row an instruction takes the transmit step (R34). -/
theorem exec_in_place : exec i s = transmit (txOf s.params.cmdTable i) s := by
  rw [exec_of_transmission (Seq.carrier_of_row hrow) hw, transmitInPlace_of_row hrow]

/-- Answered `Ok` before the last position. -/
theorem exec_in_place_ok (hr : s.responses = .ok :: later) (hl : s.seq.isLast = false) :
    exec i s = .next (s.afterOk (txOf s.params.cmdTable i) later s.seq.next) := by
  obtain ⟨req, ho⟩ := Seq.owner_of_busy (Seq.busy_of_row hrow)
  rw [exec_in_place hw hrow, transmit_of_response ho hr, settle_emit_ok hl]

/-- Answered `Ok` at the last position. -/
theorem exec_in_place_last (ho : s.seq.owner = some req) (hr : s.responses = .ok :: later)
    (hl : s.seq.isLast = true) :
    exec i s = .next
      { s with
        fb := s.finish.fb
        seq := .idle
        responses := later
        record := s.record ++ [.tx (txOf s.params.cmdTable i) .ok, .result req .ok] } := by
  rw [exec_in_place hw hrow, transmit_of_response ho hr, settle_emit_last hl,
    State.finishWith_emit_finish]

/-- Answered `Err(e)`. -/
theorem exec_in_place_err {e : TransportError} (ho : s.seq.owner = some req)
    (hr : s.responses = .err e :: later) :
    exec i s = .next (s.afterErr (txOf s.params.cmdTable i) e later req) := by
  rw [exec_in_place hw hrow, transmit_of_response ho hr, settle_emit_err]

/-- Whatever the transport does, there is a next state: with no response the instruction waits (log 2). -/
theorem exec_in_place_next : ∃ t, exec i s = .next t := by
  have hb := Seq.busy_of_row hrow
  obtain ⟨req, ho⟩ := Seq.owner_of_busy hb
  rw [exec_in_place hw hrow]
  cases hr : s.responses with
  | nil => exact ⟨s, transmit_waits hb hr _⟩
  | cons resp later => exact ⟨_, transmit_of_response ho hr _⟩

end inPlace

/-- Settles O30: the `Err(e)` case of the transmit step. -/
theorem failedTransmissionEndsTheRequest : Obligations.FailedTransmissionEndsTheRequest :=
  fun _ _ _ _ _ hw hrow ho hr => exec_in_place_err hw hrow ho hr

/-! ### In place and out of place -/

/-- Settles O38: a request in `Idle` by its effect, any other instruction by the transmit step. -/
theorem everyInstructionAnswersInItsPlace : Obligations.EveryInstructionAnswersInItsPlace := by
  intro i s hw hidle hrow
  by_cases hc : i.carrier = .request
  · exact exec_request_next_of_idle hc hw (hidle hc)
  · exact exec_in_place_next hw (hrow hc)

/-- A request while busy is refused (R30; log 14). -/
theorem exec_request_busy {i : Instr} (hc : i.carrier = .request) (hq : s.seq ≠ .idle) :
    exec i s = .refused .requestWhileBusy := by
  cases i with
  | setPixel | replaceFromRaw | setConfig | runInit | flush | clearScreen =>
    exact acceptWhenIdle_busy hq _
  | _ => cases hc

/-- A command or page off its position is refused (R86; log 13). -/
theorem exec_off_sequence {i : Instr} (hc : i.carrier ≠ .request) (hw : i.wellFormed = true)
    (hrow : s.seq.row s.cfg ≠ some i.row) : exec i s = .refused .offSequence := by
  rw [exec_of_transmission hc hw, transmitInPlace_off hrow]

/-- Settles O39: for a request, idle or busy, and for a transmission, in its place or off it, the answer of `exec` is
known. -/
theorem execRefusesOnlyOutOfPlace : Obligations.ExecRefusesOnlyOutOfPlace := by
  intro i s hw
  by_cases hc : i.carrier = .request
  · by_cases hi : s.seq = .idle
    · obtain ⟨t, ht⟩ := exec_request_next_of_idle hc hw hi
      simp [ht, hc, hi]
    · simp [exec_request_busy hc hi, hc, hi, eq_comm]
  · by_cases hrow : s.seq.row s.cfg = some i.row
    · obtain ⟨t, ht⟩ := exec_in_place_next hw hrow
      simp [ht, hc, hrow]
    · simp [exec_off_sequence hc hw hrow, hc, hrow, eq_comm]

/-! ### Register commands, answered `Ok` -/

section command
variable {i : Instr} {q : Seq} {later : List Response}

/-- A register command in its place, answered `Ok` with a position `q` after it. -/
theorem exec_command_ok (hc : i.carrier = .command) (hrow : s.seq.row s.cfg = some i.row)
    (hr : s.responses = .ok :: later) (hnext : s.seq.next = q) (hq : q ≠ .idle) :
    exec i s = .next (s.afterOk ⟨.cmd, commandBytes s.params.cmdTable i⟩ later q) := by
  rw [exec_in_place_ok (encode_of_command hc).2 hrow hr (Seq.not_isLast_of_next hnext hq),
    txOf_of_command hc, hnext]

/-- The same at a step of INITIALIZE before the last, under CMD_TABLE's default. -/
theorem exec_init_ok {k : Fin 15} (hseq : s.seq = .init k) (ht : s.params.cmdTable = standardTable)
    (hr : s.responses = .ok :: later) (hrow : (initCmd k s.cfg).row = i.row) (hk : k.val + 1 < 15) :
    exec i s =
      .next (s.afterOk ⟨.cmd, commandBytes standardTable i⟩ later (.init ⟨k.val + 1, hk⟩)) := by
  have hc : i.carrier = .command := by rw [Instr.carrier, ← hrow]; exact initCmd_carrier k s.cfg
  rw [← ht]
  refine exec_command_ok hc ?_ hr ?_ (by simp) <;> rw [hseq]
  · exact congrArg some hrow
  · exact dif_pos hk

end command

/-! ### The initialization commands (R101 to R115) -/

/-- Settles O23: each command is in its place at its step, and its byte is the table's. -/
theorem oneByteInitCommandsTransmit : Obligations.OneByteInitCommandsTransmit := by
  intro s later ht hr
  exact ⟨fun h0 => exec_init_ok h0 ht hr (by rfl) (by decide),
    fun _ h4 => exec_init_ok h4 ht hr (by rfl) (by decide),
    fun h5 => ⟨exec_init_ok h5 ht hr (by rfl) (by decide),
      exec_init_ok h5 ht hr (by rfl) (by decide)⟩,
    fun h6 => ⟨exec_init_ok h6 ht hr (by rfl) (by decide),
      exec_init_ok h6 ht hr (by rfl) (by decide)⟩,
    fun h11 => exec_init_ok h11 ht hr (by rfl) (by decide),
    fun h12 => ⟨exec_init_ok h12 ht hr (by rfl) (by decide),
      exec_init_ok h12 ht hr (by rfl) (by decide)⟩⟩

/-- Settles O24: each command is in its place at its step, and sends the table's opcode before its operand. -/
theorem rawOperandInitCommandsTransmit : Obligations.RawOperandInitCommandsTransmit := by
  intro s later v ht hr
  refine ⟨?_, ?_, ?_, ?_, ?_, ?_, ?_⟩ <;> intro hseq <;>
    exact exec_init_ok hseq ht hr (by rfl) (by decide)

/-- Settles O25: the operand byte is the table's for the choice. -/
theorem chargePumpCommandTransmits : Obligations.ChargePumpCommandTransmits := by
  intro s later ht hr h13
  refine ⟨?_, ?_, ?_, ?_⟩ <;> exact exec_init_ok h13 ht hr (by rfl) (by decide)

/-- Settles O26: the last position, where `Finish` does nothing for INITIALIZE (R145). -/
theorem displayOnCompletesInitialize : Obligations.DisplayOnCompletesInitialize := by
  intro s later ht hr h14
  have hexec := exec_in_place_last (s := s) (i := .displayOn) (req := .runInit) rfl
    (by rw [h14]; rfl) (by rw [h14]; rfl) hr (by rw [h14]; rfl)
  rwa [s.finish_init h14, ht] at hexec

/-! ### The page transfer (R116 to R118, R73, R196, R197) -/

/-- Settles O27: the bytes of the cursor commands are not in the command table. -/
theorem cursorCommandsTransmit : Obligations.CursorCommandsTransmit := by
  intro s later src p hr
  refine ⟨?_, ?_, ?_⟩ <;> intro operand hseq <;>
    exact exec_command_ok rfl (by rw [hseq]; rfl) hr (by rw [hseq]; rfl) (by simp)

/-- Settles O28: before page 7 the position after the data is the next page's select. -/
theorem pageDataTransmits : Obligations.PageDataTransmits := by
  intro s later src p d h hd hr hseq
  have hnext : s.seq.next = .flush src ⟨p.val + 1, h⟩ .pageSel := by rw [hseq]; exact dif_pos h
  have hexec := exec_in_place_ok (i := .pageData d) (beq_iff_eq.mpr hd) (by rw [hseq]; rfl) hr
    (Seq.not_isLast_of_next hnext (by simp))
  rwa [hnext] at hexec

/-- Settles O29: the last position, where `Finish` clears FB for FLUSH when the parameter says so, and never for
CLEAR_SCREEN. -/
theorem lastPageFinishesTheFlush : Obligations.LastPageFinishesTheFlush := by
  intro s later d hd hr
  have hw : (Instr.pageData d).wellFormed = true := beq_iff_eq.mpr hd
  constructor <;> intro hseq
  · refine ⟨_, exec_in_place_last (req := .flush) hw (by rw [hseq]; rfl) (by rw [hseq]; rfl) hr
      (by rw [hseq]; rfl), fun p c => ?_, rfl⟩
    show s.finish.fbRead p c = _
    rw [s.finish_flush_buf hseq]
    split <;> rfl
  · have hexec := exec_in_place_last (req := .clearScreen) hw (by rw [hseq]; rfl) (by rw [hseq]; rfl)
      hr (by rw [hseq]; rfl)
    rwa [s.finish_flush_zero hseq] at hexec

/-! ### Starting a sequence, waiting, and what a step runs -/

/-- Settles O32: accept steps in `Idle`, whose effect is the move of `seq` alone. -/
theorem sequenceRequestsStart : Obligations.SequenceRequestsStart :=
  fun _ hi => ⟨acceptWhenIdle_idle hi _, acceptWhenIdle_idle hi _, acceptWhenIdle_idle hi _⟩

/-- Busy, a step is `exec` of the instruction of the position (R144, R192). -/
theorem step_eq_exec_of_instr {i : Instr} (hi : s.seq.instr s.cfg s.fb = some i) : step s = exec i s := by
  rw [step_of_instr hi, exec_of_instr hi, transmitInPlace_of_row (Seq.row_of_instr hi)]

/-- Settles O15: the request at the port, or the instruction of the position. -/
theorem stepRunsTheFetchedInstruction : Obligations.StepRunsTheFetchedInstruction :=
  fun _ => ⟨fun _ _ _ hi hr hd => step_idle_request hi hr hd,
    fun _ hseq => step_eq_exec_of_instr (by rw [hseq]; rfl),
    fun _ _ _ hseq => step_eq_exec_of_instr (by rw [hseq]; rfl)⟩

/-- Busy with no response come back, a step waits (U9; log 2). -/
theorem step_busy_waits (hq : s.seq ≠ .idle) (hr : s.responses = []) : step s = .next s := by
  obtain ⟨i, hi⟩ := Seq.instr_of_busy hq s.cfg s.fb
  rw [step_of_instr hi, transmit_waits hq hr]

/-- Settles O16: idle and busy. -/
theorem waitingChangesNothing : Obligations.WaitingChangesNothing :=
  fun _ => ⟨step_idle_empty, step_busy_waits⟩

end Sys2Proof.Machine
end

section
/-! SUPPORT. What every step keeps, settled: the parameters (R29), who writes CFG and FB (R26), how the record grows (R36),
and that no step faults (R220); then what a step transmits under CMD_TABLE's default (R86). -/

namespace Sys2Proof.Machine

variable {s t : State}

/-- Settles O22: a step refuses a request that does not decode, or it has a next state. -/
theorem stepNeverFaults : Obligations.StepNeverFaults := by
  intro s f hf
  rcases step_refuses_or_next s with ⟨req, q, why, hi, hr, hd⟩ | ⟨t, ht⟩
  · cases (step_idle_undecodable hi hr hd).symm.trans hf
  · cases ht.symm.trans hf

/-! ### Parameters and CFG -/

/-- Settles O48: a request and a transmission both leave the parameters alone. -/
theorem stepKeepsTheParameters : Obligations.StepKeepsTheParameters := by
  intro s t h
  rcases step_cases h with
    ⟨rfl, -⟩ | ⟨r, later, i, -, -, -, hc, hw, he⟩ | ⟨i, req, resp, later, -, -, -, rfl⟩
  · rfl
  · obtain ⟨-, -, hparams, -⟩ := exec_request_frame hc hw he
    exact hparams
  · obtain ⟨-, -, -, hparams⟩ := settle_frame (s.emit (txOf s.params.cmdTable i) resp later) req resp
    exact hparams

/-- A request other than SET_CONFIG leaves CFG alone. -/
theorem exec_request_cfg {i : Instr} (hc : i.carrier = .request) (hw : i.wellFormed = true)
    (h : exec i s = .next t) : t.cfg = s.cfg ∨ i = .setConfig t.cfg := by
  rcases (exec_request_cases hc hw h).2 with
    ⟨x, y, on, -, rfl⟩ | ⟨pages, -, -, rfl⟩ | ⟨c, rfl, rfl⟩ | ⟨-, rfl⟩ | ⟨-, rfl⟩ | ⟨-, rfl⟩
  · exact .inl (setPixelEffect_frame x y on s).1
  · exact .inl rfl
  · exact .inr rfl
  · exact .inl rfl
  · exact .inl rfl
  · exact .inl rfl

/-- Settles O49: waiting and transmitting leave CFG alone, and of the requests SET_CONFIG alone writes it, with the
record presented. -/
theorem onlySetConfigWritesCfg : Obligations.OnlySetConfigWritesCfg := by
  intro s t h hne
  rcases step_cases h with
    ⟨rfl, -⟩ | ⟨r, later, i, hi, hr, hd, hc, hw, he⟩ | ⟨i, req, resp, later, -, -, -, rfl⟩
  · exact absurd rfl hne
  · rcases exec_request_cfg hc hw he with hcfg | rfl
    · exact absurd hcfg hne
    · obtain rfl : PortRequest.mk 2 (.config t.cfg) = r := Code.request.inj (encode_of_decodeRequest hd)
      exact ⟨t.cfg, later, hi, hr, rfl⟩
  · exact absurd (settle_frame (s.emit (txOf s.params.cmdTable i) resp later) req resp).1 hne

/-! ### The transmit step in its three cases -/

/-- All a response does (R34): `Ok` before the last position, `Ok` at the last one, or `Err(e)`. -/
theorem settle_emit_cases (s : State) (tx : Tx) (req : Instr) (resp : Response) (later : List Response) :
    (resp = .ok ∧ s.seq.isLast = false ∧
      (s.emit tx resp later).settle req resp = s.afterOk tx later s.seq.next) ∨
    (resp = .ok ∧ s.seq.isLast = true ∧
      (s.emit tx resp later).settle req resp = (s.finish.emit tx .ok later).finishWith req .ok) ∨
    ∃ e, resp = .err e ∧ (s.emit tx resp later).settle req resp = s.afterErr tx e later req := by
  cases resp with
  | err e => exact .inr (.inr ⟨e, rfl, settle_emit_err e tx later⟩)
  | ok =>
    cases hl : s.seq.isLast
    · exact .inl ⟨rfl, rfl, settle_emit_ok hl tx later⟩
    · exact .inr (.inl ⟨rfl, rfl, settle_emit_last hl tx later⟩)

/-! ### FB -/

/-- A request other than SET_PIXEL in range and REPLACE_FROM_RAW leaves FB alone. -/
theorem exec_request_fb {i : Instr} (hc : i.carrier = .request) (hw : i.wellFormed = true)
    (h : exec i s = .next t) :
    t.fb = s.fb ∨ (∃ x y on, i = .setPixel x y on ∧ InRange x y) ∨
      ∃ pages, i = .replaceFromRaw pages := by
  rcases (exec_request_cases hc hw h).2 with
    ⟨x, y, on, rfl, rfl⟩ | ⟨pages, rfl, -, rfl⟩ | ⟨c, rfl, rfl⟩ | ⟨-, rfl⟩ | ⟨-, rfl⟩ | ⟨-, rfl⟩
  · rcases setPixelEffect_cases x y on s with ⟨hr, -⟩ | ⟨-, he⟩
    · exact .inr (.inl ⟨x, y, on, rfl, hr⟩)
    · rw [he]; exact .inl rfl
  · exact .inr (.inr ⟨pages, rfl⟩)
  · exact .inl rfl
  · exact .inl rfl
  · exact .inl rfl
  · exact .inl rfl

/-- At the last position `Finish` writes FB only for FLUSH, and only when the parameter says so (R196). -/
theorem finish_writes_fb (hl : s.seq.isLast = true) (hne : s.finish.fb ≠ s.fb) :
    s.seq = .flush .buf 7 .data ∧ s.params.clearAfterFlush = true := by
  rw [State.finish_fb] at hne
  obtain ⟨hflush, hclear⟩ : s.seq.owner = some .flush ∧ s.params.clearAfterFlush = true := by
    by_contra hno
    exact hne (if_neg hno)
  rcases Seq.isLast_iff.mp hl with hseq | ⟨src, hseq⟩ <;> rw [hseq] at hflush
  · cases hflush
  · cases src with
    | buf => exact ⟨hseq, hclear⟩
    | zero => cases hflush

/-- Settles O50: of the requests two write FB; of the responses the `Ok` to the last transmission of a FLUSH alone. -/
theorem onlyThreeRequestsWriteFb : Obligations.OnlyThreeRequestsWriteFb := by
  intro s t h hne
  rcases step_cases h with
    ⟨rfl, -⟩ | ⟨r, later, i, hi, hr, hd, hc, hw, he⟩ | ⟨i, req, resp, later, -, -, hresp, rfl⟩
  · exact absurd rfl hne
  · refine .inl ⟨hi, r, later, hr, ?_⟩
    rcases exec_request_fb hc hw he with hfb | ⟨x, y, on, rfl, hin⟩ | ⟨pages, rfl⟩
    · exact absurd hfb hne
    · exact .inl ⟨x, y, on, hd, hin⟩
    · exact .inr ⟨pages, hd⟩
  · rcases settle_emit_cases s (txOf s.params.cmdTable i) req resp later with
      ⟨-, -, hs⟩ | ⟨rfl, hl, hs⟩ | ⟨e, -, hs⟩ <;> rw [hs] at hne
    · exact absurd rfl hne
    · obtain ⟨hseq, hclear⟩ := finish_writes_fb hl hne
      exact .inr ⟨hseq, hclear, later, hresp⟩
    · exact absurd rfl hne

/-! ### The record -/

/-- Settles O53: a request adds its result at most; a transmission adds itself, with no result when the sequence goes
on and with one when it ends. -/
theorem recordGrowsWithTheSequence : Obligations.RecordGrowsWithTheSequence := by
  intro s t h
  rcases step_cases h with
    ⟨rfl, hwait⟩ | ⟨r, later, i, hi, -, -, hc, hw, he⟩ | ⟨i, req, resp, later, hinstr, howner, -, rfl⟩
  · rcases hwait with ⟨hi, -⟩ | ⟨-, hresp⟩
    · exact ⟨[], [], by simp [hi]⟩
    · exact ⟨[], [], by simp [hresp]⟩
  · obtain ⟨-, -, -, hrecord | ⟨res, hrecord⟩⟩ := exec_request_frame hc hw he
    · exact ⟨[], [], by simpa [hi] using hrecord⟩
    · exact ⟨[], [.result i res], by simpa [hi] using hrecord⟩
  · rcases settle_emit_cases s (txOf s.params.cmdTable i) req resp later with
      ⟨rfl, hl, hs⟩ | ⟨rfl, hl, hs⟩ | ⟨e, rfl, hs⟩ <;> rw [hs]
    · obtain ⟨-, hnext, hnumber⟩ := Seq.next_of_not_last hl (Seq.busy_of_owner howner)
      exact ⟨[.tx (txOf s.params.cmdTable i) .ok], [], by simp [hnext, hnumber]⟩
    · exact ⟨[.tx (txOf s.params.cmdTable i) .ok], [.result req .ok], by simp⟩
    · exact ⟨[.tx (txOf s.params.cmdTable i) (.err e)], [.result req (.transportFailure e)], by simp⟩

/-! ### The transmissions of a step match one row (R86) -/

/-- What a step adds to the record holds no transmission but that of the position (R34). -/
theorem step_adds_txOf (h : step s = .next t) :
    ∃ es, t.record = s.record ++ es ∧ ∀ tx resp, Event.tx tx resp ∈ es →
      ∃ i, s.seq.instr s.cfg s.fb = some i ∧ tx = txOf s.params.cmdTable i := by
  rcases step_cases h with
    ⟨rfl, -⟩ | ⟨r, later, i, -, -, -, hc, hw, he⟩ | ⟨i, req, resp, later, hinstr, -, -, rfl⟩
  · exact ⟨[], by simp⟩
  · obtain ⟨-, -, -, hrecord | ⟨res, hrecord⟩⟩ := exec_request_frame hc hw he
    · exact ⟨[], by simpa using hrecord⟩
    · exact ⟨[.result i res], by simpa using hrecord⟩
  · rcases settle_emit_cases s (txOf s.params.cmdTable i) req resp later with
      ⟨-, -, hs⟩ | ⟨-, -, hs⟩ | ⟨e, -, hs⟩ <;> rw [hs]
    · exact ⟨[.tx (txOf s.params.cmdTable i) .ok], by simp [hinstr]⟩
    · exact ⟨[.tx (txOf s.params.cmdTable i) .ok, .result req .ok], by simp [hinstr]⟩
    · exact ⟨[.tx (txOf s.params.cmdTable i) (.err e), .result req (.transportFailure e)],
        by simp [hinstr]⟩

/-- A position's transmission in the command phase is `Enc` of a register command: a page goes out in the data phase
(R71, R73). -/
theorem Seq.command_of_txOf {q : Seq} {c : Cfg} {fb : Memory} {tbl : CmdTable} {i : Instr}
    {bytes : List Byte} (hi : q.instr c fb = some i) (h : txOf tbl i = ⟨.cmd, bytes⟩) :
    i.carrier = .command ∧ bytes = commandBytes tbl i := by
  have hc : i.carrier = .command := by
    cases hcarrier : i.carrier with
    | command => rfl
    | request => exact absurd hcarrier (Seq.carrier_of_row (Seq.row_of_instr hi))
    | data => cases i <;> cases hcarrier; cases h
  rw [txOf_of_command hc, Tx.mk.injEq] at h
  exact ⟨hc, h.2.symm⟩

/-- The bytes of a register command under CMD_TABLE's default have the length of a row whose mask and match byte 0
meets: the decoder takes them. -/
theorem exists_opRow_of_command {i : Instr} (hc : i.carrier = .command) :
    ∃ r ∈ opRows, (commandBytes standardTable i).length = r.len ∧
      r.accepts ((commandBytes standardTable i).headD 0) = true := by
  obtain ⟨henc, hw⟩ := encode_of_command hc
  have hdec := decode_encode hw
  rw [henc] at hdec
  obtain ⟨b, rest, r, hbytes, hmem, hacc, hlen, -⟩ := decodeCommand_ok hdec
  rw [hbytes]
  exact ⟨r, hmem, hlen, hacc⟩

/-- The matches of two rows differ in a bit that both masks keep. -/
theorem opRows_matches_differ : ∀ r ∈ opRows, ∀ r' ∈ opRows,
    r.mat &&& r'.mask = r'.mat &&& r.mask → r' = r := by
  decide +kernel

/-- Two rows that accept one byte are the same row: both matches are that byte under a mask. -/
theorem opRow_unique {r r' : OpRow} {b : Byte} (hr : r ∈ opRows) (hr' : r' ∈ opRows)
    (h : r.accepts b = true) (h' : r'.accepts b = true) : r' = r := by
  apply opRows_matches_differ r hr r' hr'
  rw [← beq_iff_eq.mp h, ← beq_iff_eq.mp h', BitVec.and_assoc, BitVec.and_assoc,
    BitVec.and_comm r.mask]

/-- Settles O4: a command-phase transmission of a step is that of a register command, which one row accepts. -/
theorem emittedCommandMatchesOneRow : Obligations.EmittedCommandMatchesOneRow := by
  intro s t es bytes resp htable hstep hes hmem
  obtain ⟨es', hes', htx⟩ := step_adds_txOf hstep
  obtain rfl : es = es' := List.append_cancel_left (hes.symm.trans hes')
  obtain ⟨i, hi, heq⟩ := htx _ _ hmem
  rw [htable] at heq
  obtain ⟨hc, rfl⟩ := Seq.command_of_txOf hi heq.symm
  obtain ⟨r, hr, hlen, hacc⟩ := exists_opRow_of_command hc
  exact ⟨r, hr, hlen, fun r' hr' => ⟨opRow_unique hr hr' hacc, fun e => e ▸ hacc⟩⟩

end Sys2Proof.Machine
end

section
/-! SUPPORT. What a step does not look at, settled: the request port while busy (R30), FB during INITIALIZE and CFG during a
flush (R26), the transport's error values (R222). Each is a change of the state that commutes with the step. -/

namespace Sys2Proof.Machine

variable {s : State} {f : State → State} {g : TransportError → TransportError}

/-! ### Changes that the transmit step does not see -/

/-- `f` changes only what the rules of the transmit step carry along, `g` being what it does to the error values: it keeps
`seq` and commutes with taking a response, moving `seq` and ending a request. -/
structure Unseen (f : State → State) (g : TransportError → TransportError) : Prop where
  seq : ∀ s, (f s).seq = s.seq
  responses : ∀ s, (f s).responses = s.responses.map (Response.mapErr g)
  emit : ∀ s tx resp later,
    (f s).emit tx (resp.mapErr g) (later.map (Response.mapErr g)) = f (s.emit tx resp later)
  move : ∀ s q, { f s with seq := q } = f { s with seq := q }
  finishWith : ∀ s req res, (f s).finishWith req (res.mapErr g) = f (s.finishWith req res)

/-- Settling commutes with an unseen change that `Finish` does not see either (R34). -/
theorem Unseen.settle (h : Unseen f g) (hfin : (f s).finish = f s.finish) (req : Instr)
    (resp : Response) : (f s).settle req (resp.mapErr g) = f (s.settle req resp) := by
  cases resp with
  | err e => exact h.finishWith s req (.transportFailure e)
  | ok =>
    show (f s).settle req .ok = _
    cases hl : s.seq.isLast
    · rw [settle_ok_not_last hl, settle_ok_not_last (by rwa [h.seq]), h.seq]
      exact h.move s _
    · rw [settle_ok_last hl, settle_ok_last (by rwa [h.seq]), hfin]
      exact h.finishWith s.finish req .ok

/-- So does the whole transmit step. -/
theorem Unseen.transmit (h : Unseen f g) (hfin : (f s).finish = f s.finish) (tx : Tx) :
    transmit tx (f s) = mapNext f (transmit tx s) := by
  cases ho : s.seq.owner with
  | none =>
    unfold Machine.transmit
    rw [h.seq, ho]
    rfl
  | some req =>
    have ho' : (f s).seq.owner = some req := by rwa [h.seq]
    have hr' := h.responses s
    cases hr : s.responses with
    | nil =>
      rw [hr] at hr'
      rw [transmit_waits (Seq.busy_of_owner ho) hr, transmit_waits (Seq.busy_of_owner ho') hr']
      rfl
    | cons resp later =>
      rw [hr] at hr'
      have hfin' : (f (s.emit tx resp later)).finish = f (s.emit tx resp later).finish := by
        rw [← h.emit, finish_emit, hfin, h.emit, finish_emit]
      rw [transmit_of_response ho hr, transmit_of_response ho' hr', h.emit, h.settle hfin']
      rfl

/-- Busy, so does the step, if the change is none to the instruction of the position nor to the command table. -/
theorem Unseen.step (h : Unseen f g) (hfin : (f s).finish = f s.finish) (hq : s.seq ≠ .idle)
    (hinstr : s.seq.instr (f s).cfg (f s).fb = s.seq.instr s.cfg s.fb)
    (htable : (f s).params.cmdTable = s.params.cmdTable) :
    step (f s) = mapNext f (step s) := by
  obtain ⟨i, hi⟩ := Seq.instr_of_busy hq s.cfg s.fb
  have hi' : (f s).seq.instr (f s).cfg (f s).fb = some i := by rw [h.seq, hinstr, hi]
  rw [step_of_instr hi, step_of_instr hi', htable, h.transmit hfin]

@[simp] theorem Response.mapErr_id : Response.mapErr id = id := by
  funext r; cases r <;> rfl

@[simp] theorem Result.mapErr_id : Result.mapErr id = id := by
  funext r; cases r <;> rfl

/-- `Finish` looks at `seq`, FB and the parameters (R196). -/
theorem State.finish_eq_withFb (s : State) :
    s.finish =
      s.withFb (if s.seq.owner = some .flush ∧ s.params.clearAfterFlush then [] else s.fb) := by
  rw [← State.finish_fb]
  exact State.finish_eq_with_fb

/-- `Finish` does not look at the request port. -/
theorem finish_withRequests (s : State) (q : List PortRequest) :
    (s.withRequests q).finish = s.finish.withRequests q := by
  rw [State.finish_eq_withFb, State.finish_eq_withFb]; rfl

/-- `Finish` does not look at CFG. -/
theorem finish_withCfg (s : State) (c : Cfg) : (s.withCfg c).finish = s.finish.withCfg c := by
  rw [State.finish_eq_withFb, State.finish_eq_withFb]; rfl

/-- `Finish` does not look at the error values. -/
theorem finish_mapErr (s : State) (g : TransportError → TransportError) :
    (s.mapErr g).finish = s.finish.mapErr g := by
  rw [State.finish_eq_withFb, State.finish_eq_withFb]; rfl

/-- A change that leaves the responses alone is unseen when the three operations carry it along as it is. -/
theorem Unseen.of_responses_eq (hseq : ∀ s, (f s).seq = s.seq)
    (hresponses : ∀ s, (f s).responses = s.responses)
    (hemit : ∀ s tx resp later, (f s).emit tx resp later = f (s.emit tx resp later))
    (hmove : ∀ s q, { f s with seq := q } = f { s with seq := q })
    (hfinishWith : ∀ s req res, (f s).finishWith req res = f (s.finishWith req res)) :
    Unseen f id where
  seq := hseq
  responses s := by rw [hresponses, Response.mapErr_id, List.map_id]
  emit s tx resp later := by rw [Response.mapErr_id, List.map_id]; exact hemit s tx resp later
  move := hmove
  finishWith s req res := by rw [Result.mapErr_id]; exact hfinishWith s req res

/-- Another queue of requests is unseen. -/
theorem unseen_withRequests (q : List PortRequest) : Unseen (·.withRequests q) id :=
  .of_responses_eq (fun _ => rfl) (fun _ => rfl) (fun _ _ _ _ => rfl) (fun _ _ => rfl)
    (fun _ _ _ => rfl)

/-- Another FB is unseen. -/
theorem unseen_withFb (m : Memory) : Unseen (·.withFb m) id :=
  .of_responses_eq (fun _ => rfl) (fun _ => rfl) (fun _ _ _ _ => rfl) (fun _ _ => rfl)
    (fun _ _ _ => rfl)

/-- Another CFG is unseen. -/
theorem unseen_withCfg (c : Cfg) : Unseen (·.withCfg c) id :=
  .of_responses_eq (fun _ => rfl) (fun _ => rfl) (fun _ _ _ _ => rfl) (fun _ _ => rfl)
    (fun _ _ _ => rfl)

/-- A renaming of the error values is unseen: the record holds the renamed response and result. -/
theorem unseen_mapErr (g : TransportError → TransportError) : Unseen (State.mapErr g) g where
  seq _ := rfl
  responses _ := rfl
  emit s tx resp later := by simp [State.mapErr, State.emit, Event.mapErr]
  move _ _ := rfl
  finishWith s req res := by simp [State.mapErr, State.finishWith, Event.mapErr]

/-! ### The request port while busy (R30) -/

/-- A busy step leaves the requests waiting at the port. -/
theorem step_busy_requests {t : State} (hq : s.seq ≠ .idle) (h : step s = .next t) :
    t.requests = s.requests := by
  rcases step_cases h with ⟨rfl, -⟩ | ⟨_, _, _, hi, -⟩ | ⟨i, req, resp, later, -, -, -, rfl⟩
  · rfl
  · exact absurd hi hq
  · obtain ⟨-, hreq, -, -⟩ := settle_frame (s.emit (txOf s.params.cmdTable i) resp later) req resp
    exact hreq

/-- Settles O20: the queue is unseen, and a busy step has a next state. -/
theorem busyBlockLeavesRequestsWaiting : Obligations.BusyBlockLeavesRequestsWaiting := by
  intro s q hq
  obtain ⟨t, ht⟩ := step_next_of_busy hq
  exact ⟨(unseen_withRequests q).step (finish_withRequests s q) hq rfl rfl, t, ht,
    step_busy_requests hq ht⟩

/-! ### FB during INITIALIZE, CFG during a flush (R26) -/

/-- Settles O51: the initialization program has no byte of FB and `Finish` does nothing for it; the program of a flush
has no field of CFG. -/
theorem sequencesReadOnlyTheirOwnState : Obligations.SequencesReadOnlyTheirOwnState := by
  constructor
  · intro s k m hseq
    have hfin : (s.withFb m).finish = s.finish.withFb m := by
      rw [s.finish_init hseq, (s.withFb m).finish_init hseq]
    exact (unseen_withFb m).step hfin (by simp [hseq]) (by rw [hseq]; rfl) rfl
  · intro s src p ph c hseq
    exact (unseen_withCfg c).step (finish_withCfg s c) (by simp [hseq]) (by rw [hseq]; rfl) rfl

/-! ### The transport's error values (R222) -/

/-- An accept step commutes with an unseen change if its effect does (R33). -/
theorem Unseen.accept (h : Unseen f g) {e e' : Host.Outcome State Fault Refusal}
    (he : e' = mapNext f e) : acceptWhenIdle (f s) e' = mapNext f (acceptWhenIdle s e) := by
  by_cases hi : s.seq = .idle
  · rw [acceptWhenIdle_idle hi, acceptWhenIdle_idle (by rwa [h.seq]), he]
  · rw [acceptWhenIdle_busy hi, acceptWhenIdle_busy (by rwa [h.seq])]
    rfl

/-- SET_PIXEL's effect has no error value in it. -/
theorem setPixelEffect_mapErr (x y : Int) (on : Bool) (s : State) (g : TransportError → TransportError) :
    setPixelEffect x y on (s.mapErr g) = (setPixelEffect x y on s).mapErr g := by
  unfold setPixelEffect
  cases translatePixel x y with
  | none => exact (unseen_mapErr g).finishWith s _ (.boundaryViolation x y)
  | some w => exact (unseen_mapErr g).finishWith (s.fbWrite w.page w.column _) _ .ok

/-- A request has no error value in it: its effect is the same before a renaming and after it. -/
theorem exec_request_mapErr {i : Instr} (hc : i.carrier = .request) (hw : i.wellFormed = true) (s : State)
    (g : TransportError → TransportError) : exec i (s.mapErr g) = mapNext (·.mapErr g) (exec i s) := by
  have hg := unseen_mapErr g
  cases i with
  | setPixel x y on => exact hg.accept (congrArg _ (setPixelEffect_mapErr x y on s g))
  | replaceFromRaw pages =>
    refine hg.accept ?_
    rw [replaceEffect_of_shape hw, replaceEffect_of_shape hw]
    exact congrArg _ (hg.finishWith (s.withFb _) _ .ok)
  | setConfig c => exact hg.accept (congrArg _ (hg.finishWith (s.withCfg c) _ .ok))
  | runInit | flush | clearScreen => exact hg.accept (congrArg _ (hg.move s _))
  | _ => cases hc

/-- Settles O54: idle, the accept step of the request at the port; busy, a renaming is unseen. -/
theorem transportErrorsAreNotInspected : Obligations.TransportErrorsAreNotInspected := by
  intro s g
  by_cases hi : s.seq = .idle
  · cases hr : s.requests with
    | nil => rw [step_idle_empty hi hr, step_idle_empty (s := s.mapErr g) hi hr]; rfl
    | cons r later =>
      cases hd : decodeRequest r with
      | error why =>
        rw [step_idle_undecodable hi hr hd, step_idle_undecodable (s := s.mapErr g) hi hr hd]
        rfl
      | ok i =>
        obtain ⟨hc, hw⟩ := decodeRequest_carrier hd
        rw [step_idle_request hi hr hd, step_idle_request (s := s.mapErr g) hi hr hd]
        exact exec_request_mapErr hc hw (s.withRequests later) g
  · exact (unseen_mapErr g).step (finish_mapErr s g) hi rfl rfl

end Sys2Proof.Machine
end

section
/-! SUPPORT. The transmissions of a flush counted (R199). -/

namespace Sys2Proof.Machine

variable (t : CmdTable) (src : Src) (p : Fin 8) (fb : Memory)

/-- A page transfer is three commands of one byte and one page of 128 (R190, R192). -/
theorem map_txOf_pageProgram :
    (pageProgram src p fb).map (txOf t) =
      [⟨.cmd, [pageByte p]⟩, ⟨.cmd, [colLowByte 0]⟩, ⟨.cmd, [colHighByte 0]⟩,
        ⟨.data, pageBytes src p fb⟩] := rfl

/-- The transmissions of a flush that `keep` holds of are those of each page (R191). -/
theorem filter_map_txOf_flushProgram (keep : Tx → Bool) :
    ((flushProgram src fb).map (txOf t)).filter keep =
      ([0, 1, 2, 3, 4, 5, 6, 7] : List (Fin 8)).flatMap
        fun p => ((pageProgram src p fb).map (txOf t)).filter keep := by
  rw [flushProgram, List.map_flatMap, List.filter_flatMap]

/-- Settles O43: eight pages of three commands and one page of data each. -/
theorem flushHasThirtyTwoTransmissions : Obligations.FlushHasThirtyTwoTransmissions := by
  intro t src fb
  refine ⟨rfl, fun p ph => ?_, ?_, ?_⟩
  · exact Seq.getElem?_program (q := .flush src p ph) (c := standardConfig) rfl
  · rw [filter_map_txOf_flushProgram]
    simp [map_txOf_pageProgram]
  · rw [filter_map_txOf_flushProgram]
    simp [map_txOf_pageProgram]

end Sys2Proof.Machine
end
